-- ==== Sys2Proof/Word.lean ====
section
/-! DEFINITION. The word types of the core and the register numbers (spec 00_scope.md R3, R10; 30_encoding.md R81). -/

namespace Sys2Proof

/-- A byte: a general register, a timer, a memory cell, the immediate NN (R3, R8, R84). -/
abbrev Byte := BitVec 8

/-- A 16-bit word: pc, I, a call-stack entry, an instruction word (R10, R80). -/
abbrev Word := BitVec 16

/-- One of the four nibbles of an instruction word (R81). -/
abbrev Nibble := BitVec 4

/-- The 12-bit address field NNN (R83). Its type has exactly the values 0x000 to 0xFFF. -/
abbrev Addr12 := BitVec 12

/-- A general register number, 0 to 15 (R3, R86). All sixteen are legal in every register field. -/
abbrev Reg := Fin 16

/-- The height field N of DXYN: a count of rows, 0 to 15 (R85). -/
abbrev Height := Fin 16

/-- The number of the flag register VF (R3, R21). -/
abbrev regVF : Reg := 15

/-- The number of V0, the register that BNNN adds (R86, R122). -/
abbrev regV0 : Reg := 0

end Sys2Proof
end

