-- ==== Sys2Proof/Syntax.lean ====
section
/-! DEFINITION. The instructions: one constructor for each of the 34 rows of spec/opcode_table.json
(spec 30_encoding.md R87). -/

namespace Sys2Proof

/-- The instructions of the core, in the order of the spec's table (R87). Register operands are `Reg`, NN is a `Byte`,
NNN an `Addr12`, N a `Height`: each operand's type has exactly the values its field admits (R83 to R86). -/
inductive Instr where
  /-- `00E0` CLS: clear display (R210). -/
  | cls
  /-- `00EE` RET: return from subroutine (R115). -/
  | ret
  /-- `1NNN` JP NNN: jump absolute (R116). -/
  | jp (nnn : Addr12)
  /-- `2NNN` CALL NNN: call subroutine (R117). -/
  | call (nnn : Addr12)
  /-- `3XNN` SE VX, NN: skip if register equals immediate (R118). -/
  | seImm (x : Reg) (nn : Byte)
  /-- `4XNN` SNE VX, NN: skip if register does not equal immediate (R119). -/
  | sneImm (x : Reg) (nn : Byte)
  /-- `5XY0` SE VX, VY: skip if registers equal (R120). -/
  | seReg (x y : Reg)
  /-- `6XNN` LD VX, NN: load immediate (R140). -/
  | ldImm (x : Reg) (nn : Byte)
  /-- `7XNN` ADD VX, NN: add immediate (R141). -/
  | addImm (x : Reg) (nn : Byte)
  /-- `8XY0` LD VX, VY: register copy (R142). -/
  | ldReg (x y : Reg)
  /-- `8XY1` OR VX, VY (R143). -/
  | orReg (x y : Reg)
  /-- `8XY2` AND VX, VY (R144). -/
  | andReg (x y : Reg)
  /-- `8XY3` XOR VX, VY (R145). -/
  | xorReg (x y : Reg)
  /-- `8XY4` ADD VX, VY: add with carry out (R146). -/
  | addReg (x y : Reg)
  /-- `8XY5` SUB VX, VY: VX minus VY into VX (R147). -/
  | subReg (x y : Reg)
  /-- `8XY6` SHR VX, VY: shift VX right by one. Y is decoded and not used (R86, R148). -/
  | shr (x y : Reg)
  /-- `8XY7` SUBN VX, VY: VY minus VX into VX (R149). -/
  | subn (x y : Reg)
  /-- `8XYE` SHL VX, VY: shift VX left by one. Y is decoded and not used (R86, R150). -/
  | shl (x y : Reg)
  /-- `9XY0` SNE VX, VY: skip if registers not equal (R121). -/
  | sneReg (x y : Reg)
  /-- `ANNN` LD I, NNN: set index register (R180). -/
  | ldI (nnn : Addr12)
  /-- `BNNN` JP V0, NNN: jump with offset (R122). -/
  | jpV0 (nnn : Addr12)
  /-- `CXNN` RND VX, NN: random byte masked by an immediate (R151). -/
  | rnd (x : Reg) (nn : Byte)
  /-- `DXYN` DRW VX, VY, N: draw sprite (R211). -/
  | drw (x y : Reg) (n : Height)
  /-- `EX9E` SKP VX: skip if key down (R230). -/
  | skp (x : Reg)
  /-- `EXA1` SKNP VX: skip if key not down (R231). -/
  | sknp (x : Reg)
  /-- `FX07` LD VX, DT: read delay timer (R233). -/
  | ldFromDt (x : Reg)
  /-- `FX0A` LD VX, K: wait for key (R232). -/
  | waitKey (x : Reg)
  /-- `FX15` LD DT, VX: write delay timer (R234). -/
  | ldDt (x : Reg)
  /-- `FX18` LD ST, VX: write sound timer (R235). -/
  | ldSt (x : Reg)
  /-- `FX1E` ADD I, VX: add register to index (R181). -/
  | addI (x : Reg)
  /-- `FX29` LD F, VX: set index to glyph address (R182). -/
  | ldFont (x : Reg)
  /-- `FX33` LD B, VX: store BCD digits (R183). -/
  | ldBcd (x : Reg)
  /-- `FX55` LD [I], VX: store V0 to VX to memory (R184). -/
  | storeRegs (x : Reg)
  /-- `FX65` LD VX, [I]: load V0 to VX from memory (R185). -/
  | loadRegs (x : Reg)
  deriving DecidableEq, Repr

end Sys2Proof
end

