-- ==== Sys2Proof/WellFormed.lean ====
section
/-! DEFINITION. Well-formedness.

A term of `Instr` cannot be ill-formed: the operand types admit exactly the values of the fields (R83 to R86), so the
range checks on operands are carried by the types. What can be ill-formed is a WORD. This file holds the spec's opcode
table (30_encoding.md R87) as rows of a mask and a match, the check that a word is one of the table's (R87, R88), and
the row each instruction belongs to. The decoder of Decode.lean is written from the fields and nibbles instead, so that
the two can be held against each other. -/

namespace Sys2Proof

/-- One row of the opcode table: a word is this row's when `w & mask = bits` (R87). -/
structure OpcodeRow where
  mnemonic : String
  mask : Word
  bits : Word
  deriving DecidableEq, Repr

/-- The test of R87. -/
def OpcodeRow.covers (r : OpcodeRow) (w : Word) : Bool := (w &&& r.mask) == r.bits

namespace Rows

/-! The rows of R87, in its order. -/

def cls : OpcodeRow := ⟨"CLS", 0xFFFF, 0x00E0⟩
def ret : OpcodeRow := ⟨"RET", 0xFFFF, 0x00EE⟩
def jp : OpcodeRow := ⟨"JP_NNN", 0xF000, 0x1000⟩
def call : OpcodeRow := ⟨"CALL_NNN", 0xF000, 0x2000⟩
def seImm : OpcodeRow := ⟨"SE_VX__NN", 0xF000, 0x3000⟩
def sneImm : OpcodeRow := ⟨"SNE_VX__NN", 0xF000, 0x4000⟩
def seReg : OpcodeRow := ⟨"SE_VX__VY", 0xF00F, 0x5000⟩
def ldImm : OpcodeRow := ⟨"LD_VX__NN", 0xF000, 0x6000⟩
def addImm : OpcodeRow := ⟨"ADD_VX__NN", 0xF000, 0x7000⟩
def ldReg : OpcodeRow := ⟨"LD_VX__VY", 0xF00F, 0x8000⟩
def orReg : OpcodeRow := ⟨"OR_VX__VY", 0xF00F, 0x8001⟩
def andReg : OpcodeRow := ⟨"AND_VX__VY", 0xF00F, 0x8002⟩
def xorReg : OpcodeRow := ⟨"XOR_VX__VY", 0xF00F, 0x8003⟩
def addReg : OpcodeRow := ⟨"ADD_VX__VY", 0xF00F, 0x8004⟩
def subReg : OpcodeRow := ⟨"SUB_VX__VY", 0xF00F, 0x8005⟩
def shr : OpcodeRow := ⟨"SHR_VX__VY", 0xF00F, 0x8006⟩
def subn : OpcodeRow := ⟨"SUBN_VX__VY", 0xF00F, 0x8007⟩
def shl : OpcodeRow := ⟨"SHL_VX__VY", 0xF00F, 0x800E⟩
def sneReg : OpcodeRow := ⟨"SNE_VX__VY", 0xF00F, 0x9000⟩
def ldI : OpcodeRow := ⟨"LD_I__NNN", 0xF000, 0xA000⟩
def jpV0 : OpcodeRow := ⟨"JP_V0__NNN", 0xF000, 0xB000⟩
def rnd : OpcodeRow := ⟨"RND_VX__NN", 0xF000, 0xC000⟩
def drw : OpcodeRow := ⟨"DRW_VX__VY__N", 0xF000, 0xD000⟩
def skp : OpcodeRow := ⟨"SKP_VX", 0xF0FF, 0xE09E⟩
def sknp : OpcodeRow := ⟨"SKNP_VX", 0xF0FF, 0xE0A1⟩
def ldFromDt : OpcodeRow := ⟨"LD_VX__DT", 0xF0FF, 0xF007⟩
def waitKey : OpcodeRow := ⟨"LD_VX__K", 0xF0FF, 0xF00A⟩
def ldDt : OpcodeRow := ⟨"LD_DT__VX", 0xF0FF, 0xF015⟩
def ldSt : OpcodeRow := ⟨"LD_ST__VX", 0xF0FF, 0xF018⟩
def addI : OpcodeRow := ⟨"ADD_I__VX", 0xF0FF, 0xF01E⟩
def ldFont : OpcodeRow := ⟨"LD_F__VX", 0xF0FF, 0xF029⟩
def ldBcd : OpcodeRow := ⟨"LD_B__VX", 0xF0FF, 0xF033⟩
def storeRegs : OpcodeRow := ⟨"LD__I___VX", 0xF0FF, 0xF055⟩
def loadRegs : OpcodeRow := ⟨"LD_VX___I", 0xF0FF, 0xF065⟩

end Rows

/-- The opcode table (R87). -/
def opcodeTable : List OpcodeRow :=
  [Rows.cls, Rows.ret, Rows.jp, Rows.call, Rows.seImm, Rows.sneImm, Rows.seReg, Rows.ldImm, Rows.addImm] ++
  [Rows.ldReg, Rows.orReg, Rows.andReg, Rows.xorReg, Rows.addReg, Rows.subReg, Rows.shr, Rows.subn, Rows.shl] ++
  [Rows.sneReg, Rows.ldI, Rows.jpV0, Rows.rnd, Rows.drw, Rows.skp, Rows.sknp] ++
  [Rows.ldFromDt, Rows.waitKey, Rows.ldDt, Rows.ldSt, Rows.addI, Rows.ldFont, Rows.ldBcd, Rows.storeRegs,
    Rows.loadRegs]

/-- A word is well-formed when some row of the table covers it; every other word is illegal (R87, R88). -/
def wordWellFormed (w : Word) : Bool := opcodeTable.any (fun r => r.covers w)

/-- The row an instruction belongs to (R87). -/
def Instr.row : Instr → OpcodeRow
  | .cls => Rows.cls
  | .ret => Rows.ret
  | .jp _ => Rows.jp
  | .call _ => Rows.call
  | .seImm _ _ => Rows.seImm
  | .sneImm _ _ => Rows.sneImm
  | .seReg _ _ => Rows.seReg
  | .ldImm _ _ => Rows.ldImm
  | .addImm _ _ => Rows.addImm
  | .ldReg _ _ => Rows.ldReg
  | .orReg _ _ => Rows.orReg
  | .andReg _ _ => Rows.andReg
  | .xorReg _ _ => Rows.xorReg
  | .addReg _ _ => Rows.addReg
  | .subReg _ _ => Rows.subReg
  | .shr _ _ => Rows.shr
  | .subn _ _ => Rows.subn
  | .shl _ _ => Rows.shl
  | .sneReg _ _ => Rows.sneReg
  | .ldI _ => Rows.ldI
  | .jpV0 _ => Rows.jpV0
  | .rnd _ _ => Rows.rnd
  | .drw _ _ _ => Rows.drw
  | .skp _ => Rows.skp
  | .sknp _ => Rows.sknp
  | .ldFromDt _ => Rows.ldFromDt
  | .waitKey _ => Rows.waitKey
  | .ldDt _ => Rows.ldDt
  | .ldSt _ => Rows.ldSt
  | .addI _ => Rows.addI
  | .ldFont _ => Rows.ldFont
  | .ldBcd _ => Rows.ldBcd
  | .storeRegs _ => Rows.storeRegs
  | .loadRegs _ => Rows.loadRegs

end Sys2Proof
end

