-- ==== Sys2Proof/Config.lean ====
section
/-! DEFINITION. What is fixed for the machine (spec 00_scope.md section 4), the variant parameters with the spec's
default, and the free values of the host's side. -/

namespace Sys2Proof.Config

/-! Fixed parameters. -/

/-- MEM_SIZE: addresses 0x000 to 0xFFF (R2). -/
@[simp] abbrev memSize : Nat := 4096

/-- PROGRAM_BASE: where the ROM image is loaded and execution starts (R5). -/
@[simp] abbrev programBase : Nat := 0x200

/-- MAX_ROM = MEM_SIZE - PROGRAM_BASE (R5). -/
@[simp] abbrev maxRom : Nat := 3584

/-- FONT_BASE (R6). -/
@[simp] abbrev fontBase : Nat := 0x000

/-- GLYPH_SIZE: bytes of one glyph (R6). -/
@[simp] abbrev glyphSize : Nat := 5

/-- DISPLAY_W (R7). -/
@[simp] abbrev displayW : Nat := 64

/-- DISPLAY_H (R7). -/
@[simp] abbrev displayH : Nat := 32

/-! Variant parameters (R4, R6, R13). The shared operations take them as arguments, so a claim can be stated under
every reading; the meanings pass the default, which is the spec's behaviour. -/

/-- VF_ORDER: which of VF and VX is written first by 8XY4, 8XY5, 8XY6, 8XY7 and 8XYE (R13, U13). -/
inductive VfOrder where
  | flagThenResult
  | resultThenFlag
  deriving DecidableEq, Repr

/-- I_OVERFLOW: what FX1E does past 0xFFFF (R13, U3). -/
inductive IOverflow where
  | wrap
  | fault
  deriving DecidableEq, Repr

/-- GLYPH_OOR: what FX29 does for VX of 16 or more (R13, U2). -/
inductive GlyphOor where
  | formula
  | mask
  | fault
  deriving DecidableEq, Repr

/-- The default of VF_ORDER (R13). -/
def vfOrder : VfOrder := .flagThenResult

/-- The default of I_OVERFLOW (R13). -/
def iOverflow : IOverflow := .wrap

/-- The default of GLYPH_OOR (R13). -/
def glyphOor : GlyphOor := .formula

/-- STACK_DEPTH: 16 return addresses; 15 is the source's other reading (R4). -/
def stackDepth : Fin 17 := 16

/-- GLYPH_TABLE: 16 glyphs of 5 bytes. The default is the font of R56, which the spec itself takes from general
knowledge (PRESUMED, log entry 11); `Machine.create` takes the table as an argument. -/
def glyphTable : Vector Byte 80 := #v[
  0xF0, 0x90, 0x90, 0x90, 0xF0,
  0x20, 0x60, 0x20, 0x20, 0x70,
  0xF0, 0x10, 0xF0, 0x80, 0xF0,
  0xF0, 0x10, 0xF0, 0x10, 0xF0,
  0x90, 0x90, 0xF0, 0x10, 0x10,
  0xF0, 0x80, 0xF0, 0x10, 0xF0,
  0xF0, 0x80, 0xF0, 0x90, 0xF0,
  0xF0, 0x10, 0x20, 0x40, 0x40,
  0xF0, 0x90, 0xF0, 0x90, 0xF0,
  0xF0, 0x90, 0xF0, 0x10, 0xF0,
  0xF0, 0x90, 0xF0, 0x90, 0x90,
  0xE0, 0x90, 0xE0, 0x90, 0xE0,
  0xF0, 0x80, 0x80, 0x80, 0xF0,
  0xE0, 0x90, 0x90, 0x90, 0xE0,
  0xF0, 0x80, 0xF0, 0x80, 0xF0,
  0xF0, 0x80, 0xF0, 0x80, 0x80]

/-! Free values: what the host does, which the spec treats as "any value" (93_implementation_defined.md U4, U5, U6).
They have no body, so nothing can be proved of the value they take. Log entries 1, 2 and 3. -/

/-- U6, R288: how many `tick_timers` calls the host makes before its n-th `step`. -/
opaque hostTicks : Nat → Nat

/-- U5, R280: the key snapshot K the host hands to its n-th `step`. -/
opaque hostKeys : Nat → Vector Bool 16

/-- U4, R282: the n-th byte drawn from the random capability. -/
opaque randomByte : Nat → Byte

end Sys2Proof.Config
end

