-- ==== Sys2Proof/Machine/State.lean ====
section
/-! DEFINITION. The machine's state (spec 10_state.md), the ways a step can stop, and the state after reset. -/

namespace Sys2Proof.Machine

/-- Why a step stops: the four step fault kinds of R261 to R264, with the information of R267. A fault ends the step,
is returned to the host and changes nothing (R260, R266, R271). All four are the spec's own faults. -/
inductive Fault where
  /-- Raised by CALL when 16 return addresses are live (R261). Safe: the spec names this fault. -/
  | stackOverflow (pc : Word)
  /-- Raised by RET when no return address is live (R262). Safe: the spec names this fault. -/
  | stackUnderflow (pc : Word)
  /-- Raised by the fetch, DXYN, FX33, FX55 and FX65 when an access leaves 0 to 4095; `addr` is the lowest address
  outside (R263, R267). Under the variant parameters of R13 also by FX1E and FX29. Safe: the spec names this fault. -/
  | memoryOutOfBounds (pc : Word) (addr : Nat)
  /-- Raised at decode by an illegal word (R88, R264). Safe: the spec names this fault. -/
  | invalidOpcode (pc : Word) (word : Word)
  deriving DecidableEq, Repr

/-- Why the model has no meaning for an instruction. No arm of `exec` answers it. -/
inductive Refusal where
  /-- Raised by an arm of `exec` whose instruction has no meaning yet. Safe: the model stops where the hardware runs. -/
  | notModelled (mnemonic : String)
  deriving DecidableEq, Repr

/-- The boot-time faults: no step raises them, and then no state exists (R265). -/
inductive CreateFault where
  /-- The ROM could not be read (R302). -/
  | romLoadError
  /-- The ROM is longer than 3584 bytes (R301); the information is its length (R268). -/
  | romTooLarge (length : Nat)
  deriving DecidableEq, Repr

/-- Memory as the bytes that differ from the reset contents, addresses strictly rising. `Memory.wf` in Ops.lean is the
canonical form, `Memory.resetByte` what an unlisted address reads as. -/
abbrev Memory := List Host.Cell

/-- The display grid: row y is a vector of 64 one-bit pixels, bit x of it the pixel in column x (R7, R30). Only
`Display.pixel`, `Display.toggle` and `Display.clear` look inside. -/
abbrev Display := Vector (BitVec 64) 32

/-- An input snapshot K: which of the key codes 0 to 15 are held (R9, R280). -/
abbrev Keys := Vector Bool 16

/-- What the host does for one `step`: the `tick_timers` calls it makes first and the snapshot it hands over
(R280, R288). -/
structure HostTurn where
  ticks : Nat
  keys : Keys
  deriving DecidableEq, Repr

/-- The machine. The fields down to `mem` are the spec's state (10_state.md section 1). The fields from `keys` on are
the model's own: the host's side, which the spec calls per-step inputs (R35) and which one deterministic step has to
read from somewhere (log entries 1 to 4). -/
structure State where
  /-- V[0] to V[15] (R20); V[15] is VF, the only flag (R21, R32). -/
  v : Vector Byte 16
  /-- The program counter: the address of the instruction under way (R23). -/
  pc : Word
  /-- The index register I (R26). -/
  index : Word
  /-- sp, the number of live return addresses. Its legal values are 0 to 16 (R27, R33; log entry 5). -/
  sp : Fin 17
  /-- S[0] to S[15], the call-stack slots (R28). -/
  stack : Vector Word 16
  /-- DT, the delay timer (R29). -/
  dt : Byte
  /-- ST, the sound timer (R29). -/
  st : Byte
  /-- P, the pixel grid (R30). -/
  display : Display
  /-- M, the 4096 bytes of memory (R31). -/
  mem : Memory
  /-- MODEL'S OWN. The snapshot K of the step under way (R280). -/
  keys : Keys
  /-- MODEL'S OWN. What the host does for the coming steps, as far as it is given; after that the free values of Config
  take over. -/
  turns : List HostTurn
  /-- MODEL'S OWN. How many turns the host has taken. -/
  turnCount : Nat
  /-- MODEL'S OWN. The coming bytes of the random capability, as far as they are given; after that the free values of
  Config take over (R282). -/
  randomIn : List Byte
  /-- MODEL'S OWN. How many bytes have been drawn. -/
  drawCount : Nat
  deriving DecidableEq, Repr

/-- The state after reset with an empty ROM: R40 to R46. Memory lists nothing: unlisted addresses read as the glyph
table and zeros. The model's own fields are empty (log entry 4). -/
def State.reset : State where
  v := Vector.replicate 16 0
  pc := 0x200
  index := 0
  sp := 0
  stack := Vector.replicate 16 0
  dt := 0
  st := 0
  display := Vector.replicate 32 0
  mem := []
  keys := Vector.replicate 16 false
  turns := []
  turnCount := 0
  randomIn := []
  drawCount := 0

end Sys2Proof.Machine
end

