-- ==== Sys2Proof/Machine/Ops.lean ====
section
/-! DEFINITION. The named operations over memory, registers, stack, display, timers and the host's inputs, and the one
operation that raises a fault. -/

namespace Sys2Proof.Machine

/-- The answer of a meaning. -/
abbrev Result := Host.Outcome State Fault Refusal

/-! ## Faults -/

/-- Raising a fault, the one shared operation: the step ends with it. The core saves nothing, changes no mode and
vectors nowhere (R266, R271), and there is no return from it (R272). -/
def raise (f : Fault) : Result := .fault f

/-- Going on with the value of an operation, or raising its fault. -/
def orRaise {α : Type} (r : Except Fault α) (k : α → Result) : Result :=
  match r with
  | .ok a => k a
  | .error f => raise f

/-! ## Memory (20_memory.md) -/

/-- What an address reads as before anything is written to it: the glyph table at 0x000 to 0x04F, zero elsewhere
(R46, R56, R57). -/
def Memory.resetByte (a : Nat) : Byte :=
  if h : a < 80 then Config.glyphTable[a] else 0

/-- `M[a]` (R59). -/
def Memory.read : Memory → Nat → Byte
  | [], a => Memory.resetByte a
  | (k, b) :: m, a => if k = a then b else Memory.read m a

/-- `M[a] <- b`, keeping the canonical form: a byte equal to the reset contents is not listed (R59). -/
def Memory.write : Memory → Nat → Byte → Memory
  | [], a, b => if b = Memory.resetByte a then [] else [(a, b)]
  | (k, c) :: m, a, b =>
    if a < k then
      if b = Memory.resetByte a then (k, c) :: m else (a, b) :: (k, c) :: m
    else if a = k then
      if b = Memory.resetByte a then m else (a, b) :: m
    else (k, c) :: Memory.write m a b

/-- Bytes written one at a time at increasing addresses (R54). -/
def Memory.writeBytes : Memory → Nat → List Byte → Memory
  | m, _, [] => m
  | m, a, b :: bs => Memory.writeBytes (Memory.write m a b) (a + 1) bs

/-- The canonical form from address `lo` on. -/
def Memory.wfFrom : Nat → Memory → Bool
  | _, [] => true
  | lo, (a, b) :: m =>
    decide (lo ≤ a) && decide (a < 4096) && decide (b ≠ Memory.resetByte a) && Memory.wfFrom (a + 1) m

/-- The canonical form: addresses strictly rising and inside the 4096 bytes, and no entry equal to what an unlisted
address reads as. -/
def Memory.wf (m : Memory) : Bool := Memory.wfFrom 0 m

/-- The lowest address of `addr .. addr+n-1` outside 0 to 4095, if there is one (R52; MemRead and MemWrite of
00_scope.md section 5). Addresses are unbounded integers (R51). -/
def rangeFault (addr n : Nat) : Option Nat :=
  if n = 0 ∨ addr + n ≤ 4096 then none else some (max addr 4096)

/-- `M[a]` of a state. It is used only after the bounds check. -/
def State.byteAt (s : State) (a : Nat) : Byte := s.mem.read a

/-- `MemRead(addr, 2)`: big-endian, with the bounds check (R52, R53; 00_scope.md section 5). -/
def State.memRead2 (s : State) (addr : Nat) : Except Fault Word :=
  match rangeFault addr 2 with
  | some a => .error (.memoryOutOfBounds s.pc a)
  | none => .ok (s.byteAt addr ++ s.byteAt (addr + 1))

/-- The fetch: `w <- MemRead(pc, 2)`. It does not change pc, and no alignment is asked (R55, R111, R112). -/
def State.fetch (s : State) : Except Fault Word := s.memRead2 s.pc.toNat

/-- The check a multi-byte data access makes before any of its effects: with an address outside memory the instruction
raises `MemoryOutOfBounds`, otherwise it ends in `t` (R52, R60, R266). -/
def guardRange (s : State) (addr n : Nat) (t : State) : Result :=
  match rangeFault addr n with
  | some a => raise (.memoryOutOfBounds s.pc a)
  | none => .next t

/-- The bytes of a state's memory from `addr` on overwritten by `bs` (R54, R58: every address can be written). -/
def State.storeBytes (s : State) (addr : Nat) (bs : List Byte) : State :=
  { s with mem := s.mem.writeBytes addr bs }

/-- A word stored as two bytes at pc, the high byte first, where pc leaves room for it (R53, R111). -/
def State.placeWordAtPc (s : State) (w : Word) : State :=
  if s.pc.toNat ≤ 4094 then s.storeBytes s.pc.toNat [w.extractLsb' 8 8, w.extractLsb' 0 8] else s

/-! ## Registers (10_state.md) -/

/-- `V[r]` (R20). -/
def State.getV (s : State) (r : Reg) : Byte := s.v[r]

/-- `V[r] <- b` (R20). No register is hardwired. -/
def State.setV (s : State) (r : Reg) (b : Byte) : State := { s with v := s.v.set r b }

/-- `I <- w` (R26). -/
def State.setIndex (s : State) (w : Word) : State := { s with index := w }

/-- `pc <- w` (R23). -/
def State.setPc (s : State) (w : Word) : State := { s with pc := w }

/-- `pc <- pc + 2` (R114). -/
def State.advance (s : State) : State := s.setPc (s.pc + 2)

/-- A conditional skip: `pc + 4` when the condition holds, `pc + 2` otherwise (R114). -/
def State.skipIf (s : State) (c : Bool) : State := s.setPc (if c then s.pc + 4 else s.pc + 2)

/-- The order of the two writes of a flag-setting ALU instruction (R13, R146 to R150). -/
def State.writeFlagged (s : State) (order : Config.VfOrder) (x : Reg) (flag result : Byte) : State :=
  match order with
  | .flagThenResult => (s.setV regVF flag).setV x result
  | .resultThenFlag => (s.setV x result).setV regVF flag

/-- `for i in 0..X: V[i] <- M[addr + i]` (R185). -/
def State.loadBytes (s : State) (x : Reg) (addr : Nat) : State :=
  { s with v := Vector.ofFn fun r : Reg => if r ≤ x then s.byteAt (addr + r.val) else s.getV r }

/-- V[0] to V[X], in order (R184). -/
def State.regsUpTo (s : State) (x : Reg) : List Byte := s.v.toList.take (x.val + 1)

/-! ## Call stack (10_state.md R27, R28) -/

/-- CALL's push: `S[sp] <- pc; sp <- sp + 1`, or `StackOverflow` at the given depth (R4, R117). -/
def State.pushReturn (s : State) (depth : Fin 17) : Except Fault State :=
  if h : s.sp.val < depth.val then
    .ok { s with stack := s.stack.set s.sp.val s.pc (by omega), sp := ⟨s.sp.val + 1, by omega⟩ }
  else .error (.stackOverflow s.pc)

/-- RET's pop: `sp <- sp - 1` and the value of `S[sp]`, or `StackUnderflow` (R115). The slot keeps its value (R28). -/
def State.popReturn (s : State) : Except Fault (Word × State) :=
  if h : s.sp.val = 0 then .error (.stackUnderflow s.pc)
  else .ok (s.stack[s.sp.val - 1], { s with sp := ⟨s.sp.val - 1, by omega⟩ })

/-! ## Display (10_state.md R30) -/

/-- `P[x][y]`: is the pixel in column x of row y on. -/
def Display.pixel (d : Display) (x y : Nat) : Bool :=
  if h : y < 32 then d[y].getLsbD x else false

/-- `P[x][y] <- not P[x][y]`. -/
def Display.toggle (d : Display) (x y : Nat) : Display :=
  if h : y < 32 then d.set y (d[y] ^^^ BitVec.twoPow 64 x) else d

/-- Every pixel off (R45, R210). -/
def Display.clear : Display := Vector.replicate 32 0

/-- The display with a new grid. -/
def State.setDisplay (s : State) (d : Display) : State := { s with display := d }

/-- The display read port: the cell at the row-major index `x + y*64` (R286). -/
def State.displayCell (s : State) (idx : Nat) : Bool := Display.pixel s.display (idx % 64) (idx / 64)

/-! ## Timers (10_state.md R29; 60_exceptions.md R284) -/

/-- One counter's tick: down by one, never below zero. -/
def tickByte (b : Byte) : Byte := if b.toNat > 0 then b - 1 else b

/-- A counter after n ticks. -/
def tickTimes : Nat → Byte → Byte
  | 0, b => b
  | n + 1, b => tickTimes n (tickByte b)

/-- The tick of the delay timer alone (R284 allows it separately). -/
def State.tickDelay (s : State) : State := { s with dt := tickByte s.dt }

/-- The tick of the sound timer alone (R284 allows it separately). -/
def State.tickSound (s : State) : State := { s with st := tickByte s.st }

/-- `tick_timers()`: both counters, in one operation (R284). -/
def State.tickTimers (s : State) : State := s.tickDelay.tickSound

/-- `DT <- b` (R29). -/
def State.setDt (s : State) (b : Byte) : State := { s with dt := b }

/-- `ST <- b` (R29). -/
def State.setSt (s : State) (b : Byte) : State := { s with st := b }

/-! ## The host's inputs (60_exceptions.md R280 to R283, R288) -/

/-- `KeyDown(k)`: a code of 16 or more is never down (R280, R281). -/
def State.keyDown (s : State) (k : Byte) : Bool :=
  if h : k.toNat < 16 then s.keys[k.toNat] else false

/-- `min(PressedKeys())`: the lowest code held, if a key is held (R232, R280). -/
def State.lowestKey (s : State) : Option Reg := (List.finRange 16).find? fun k => s.keys[k]

/-- `RandomByte()`: the byte the next draw gives (R282). -/
def State.randomByte (s : State) : Byte :=
  match s.randomIn with
  | [] => Config.randomByte s.drawCount
  | r :: _ => r

/-- The random capability after one draw (R282). -/
def State.consumeDraw (s : State) : State :=
  { s with randomIn := s.randomIn.tail, drawCount := s.drawCount + 1 }

/-- The snapshot of the step under way (R280). -/
def State.latchKeys (s : State) (k : Keys) : State := { s with keys := k }

/-- What the host does for the coming step: the next given turn, or free values (R280, R288). -/
def State.nextTurn (s : State) : HostTurn :=
  match s.turns with
  | [] => ⟨Config.hostTicks s.turnCount, Config.hostKeys s.turnCount⟩
  | t :: _ => t

/-- The host's turn before a step: any number of ticks, then a fresh snapshot (R280, R288). -/
def State.takeTurn (s : State) : State :=
  { s with
    dt := tickTimes s.nextTurn.ticks s.dt
    st := tickTimes s.nextTurn.ticks s.st
    keys := s.nextTurn.keys
    turns := s.turns.tail
    turnCount := s.turnCount + 1 }

end Sys2Proof.Machine
end

