-- ==== Sys2Proof/Machine/Operands.lean ====
section
/-! DEFINITION. The operand forms (spec 30_encoding.md section 3) and the one data addressing mode (42_index_memory.md
R186). Register and byte operands need no form: a register field names V[X] (R86) and NN is used as it is (R84). -/

namespace Sys2Proof.Machine

/-- `zext_16(NNN)` (R83). -/
def zextAddr (nnn : Addr12) : Word := nnn.setWidth 16

/-- A register value as a 16-bit value: every value of the ISA is unsigned (00_scope.md section 5). -/
def zextByte (b : Byte) : Word := b.setWidth 16

/-- The effective address `I + k`, an unbounded integer, never reduced (R51, R186). -/
def State.effAddr (s : State) (k : Nat) : Nat := s.index.toNat + k

/-- `FONT_BASE + v * GLYPH_SIZE`, an unbounded integer (R182). -/
def glyphAddr (v : Nat) : Nat := Config.fontBase + v * Config.glyphSize

/-- The decimal digits of a byte: hundreds, tens, units (R157, R183). -/
def bcdDigits (v : Byte) : List Byte :=
  [BitVec.ofNat 8 (v.toNat / 100), BitVec.ofNat 8 (v.toNat / 10 % 10), BitVec.ofNat 8 (v.toNat % 10)]

end Sys2Proof.Machine
end

