-- ==== Sys2Proof/Machine/ControlFlow.lean ====
section
/-! DEFINITION. Control transfer (spec 40_control_flow.md). -/

namespace Sys2Proof.Machine

/-- RET (R115): `sp <- sp - 1; pc <- S[sp] + 2`, or `StackUnderflow` before any write. -/
def execRet (s : State) : Result :=
  orRaise s.popReturn fun (ret, t) => .next (t.setPc (ret + 2))

/-- JP NNN (R116): `pc <- zext_16(NNN)`. -/
def execJp (nnn : Addr12) (s : State) : Result := .next (s.setPc (zextAddr nnn))

/-- CALL NNN (R117): the push of the CALL's own address, then the jump, or `StackOverflow` before any write. -/
def execCall (nnn : Addr12) (s : State) : Result :=
  orRaise (s.pushReturn Config.stackDepth) fun t => .next (t.setPc (zextAddr nnn))

/-- SE VX, NN (R118). -/
def execSeImm (x : Reg) (nn : Byte) (s : State) : Result := .next (s.skipIf (s.getV x == nn))

/-- SNE VX, NN (R119). -/
def execSneImm (x : Reg) (nn : Byte) (s : State) : Result := .next (s.skipIf (s.getV x != nn))

/-- SE VX, VY (R120). -/
def execSeReg (x y : Reg) (s : State) : Result := .next (s.skipIf (s.getV x == s.getV y))

/-- SNE VX, VY (R121). -/
def execSneReg (x y : Reg) (s : State) : Result := .next (s.skipIf (s.getV x != s.getV y))

/-- JP V0, NNN (R122): `pc <- zext_16(NNN) + V[0]`. The sum is at most 0x10FE, so 16 bits hold it. -/
def execJpV0 (nnn : Addr12) (s : State) : Result :=
  .next (s.setPc (zextAddr nnn + zextByte (s.getV regV0)))

end Sys2Proof.Machine
end

