-- ==== Sys2Proof/Machine/IndexMemory.lean ====
section
/-! DEFINITION. Index register and memory transfer (spec 42_index_memory.md). -/

namespace Sys2Proof.Machine

/-- FX1E under either value of the parameter I_OVERFLOW (R13, R181). -/
def addToIndex (mode : Config.IOverflow) (x : Reg) (s : State) : Result :=
  let sum := s.index.toNat + (s.getV x).toNat
  match mode with
  | .wrap => .next (s.setIndex (BitVec.ofNat 16 sum)).advance
  | .fault =>
    if sum > 0xFFFF then raise (.memoryOutOfBounds s.pc sum)
    else .next (s.setIndex (BitVec.ofNat 16 sum)).advance

/-- FX29 under each value of the parameter GLYPH_OOR (R13, R182). -/
def indexToGlyph (mode : Config.GlyphOor) (x : Reg) (s : State) : Result :=
  let v := (s.getV x).toNat
  match mode with
  | .formula => .next (s.setIndex (BitVec.ofNat 16 (glyphAddr v))).advance
  | .mask => .next (s.setIndex (BitVec.ofNat 16 (glyphAddr (v % 16)))).advance
  | .fault =>
    if v ≥ 16 then raise (.memoryOutOfBounds s.pc (glyphAddr v))
    else .next (s.setIndex (BitVec.ofNat 16 (glyphAddr v))).advance

/-- LD I, NNN (R180). -/
def execLdI (nnn : Addr12) (s : State) : Result := .next (s.setIndex (zextAddr nnn)).advance

/-- ADD I, VX (R181): modulo 2^16, VF not touched. -/
def execAddI (x : Reg) (s : State) : Result := addToIndex Config.iOverflow x s

/-- LD F, VX (R182). -/
def execLdFont (x : Reg) (s : State) : Result := indexToGlyph Config.glyphOor x s

/-- LD B, VX (R183): three digits at I, I+1, I+2, all or none; I keeps its value. -/
def execLdBcd (x : Reg) (s : State) : Result :=
  guardRange s (s.effAddr 0) 3 (s.storeBytes (s.effAddr 0) (bcdDigits (s.getV x))).advance

/-- LD [I], VX (R184): V[0] to V[X] at I .. I+X, all or none; I keeps its value. -/
def execStoreRegs (x : Reg) (s : State) : Result :=
  guardRange s (s.effAddr 0) (x.val + 1) (s.storeBytes (s.effAddr 0) (s.regsUpTo x)).advance

/-- LD VX, [I] (R185): V[0] to V[X] from I .. I+X, all or none; I keeps its value. -/
def execLoadRegs (x : Reg) (s : State) : Result :=
  guardRange s (s.effAddr 0) (x.val + 1) (s.loadBytes x (s.effAddr 0)).advance

end Sys2Proof.Machine
end

