-- ==== Sys2Proof/Machine/InputTimers.lean ====
section
/-! DEFINITION. Key input and timer instructions (spec 44_input_timers.md). -/

namespace Sys2Proof.Machine

/-- SKP VX (R230). -/
def execSkp (x : Reg) (s : State) : Result := .next (s.skipIf (s.keyDown (s.getV x)))

/-- SKNP VX (R231). -/
def execSknp (x : Reg) (s : State) : Result := .next (s.skipIf (!s.keyDown (s.getV x)))

/-- LD VX, K (R232): with no key held nothing changes, pc included; otherwise the lowest code held. -/
def execWaitKey (x : Reg) (s : State) : Result :=
  .next (match s.lowestKey with
    | none => s
    | some k => (s.setV x (BitVec.ofNat 8 k.val)).advance)

/-- LD VX, DT (R233). -/
def execLdFromDt (x : Reg) (s : State) : Result := .next (s.setV x s.dt).advance

/-- LD DT, VX (R234). -/
def execLdDt (x : Reg) (s : State) : Result := .next (s.setDt (s.getV x)).advance

/-- LD ST, VX (R235). -/
def execLdSt (x : Reg) (s : State) : Result := .next (s.setSt (s.getV x)).advance

end Sys2Proof.Machine
end

