-- ==== Sys2Proof/Machine/Flags.lean ====
section
/-! DEFINITION. The values written to VF, the only flag (spec 10_state.md R21, R32; 41_register_alu.md R156). -/

namespace Sys2Proof.Machine

/-- A flag as the byte VF holds. -/
def flagByte (c : Bool) : Byte := if c then 1 else 0

/-- 8XY4: 1 when the exact sum exceeds 255 (R146). -/
def carryFlag (a b : Byte) : Byte := flagByte (decide (a.toNat + b.toNat > 255))

/-- 8XY5 and 8XY7: 1 when the minuend is strictly greater than the subtrahend (R147, R149). -/
def noBorrowFlag (minuend subtrahend : Byte) : Byte := flagByte (decide (minuend.toNat > subtrahend.toNat))

/-- 8XY6: the least significant bit before the shift (R148). -/
def shiftedOutLow (v : Byte) : Byte := v &&& 1

/-- 8XYE: bit 7 before the shift, `(v & 0x80) >> 7` (R150). -/
def shiftedOutHigh (v : Byte) : Byte := (v &&& 0x80) >>> 7

/-- DXYN: 1 when some pixel that was on was turned off (R211). -/
def collisionFlag (hit : Bool) : Byte := flagByte hit

end Sys2Proof.Machine
end

