-- ==== Sys2Proof/Machine/RegisterAlu.lean ====
section
/-! DEFINITION. Register loads and arithmetic (spec 41_register_alu.md). Operands are read from the state before any
write of the instruction (R12). `+` and `-` on bytes are modulo 256 (R155). -/

namespace Sys2Proof.Machine

/-- LD VX, NN (R140). -/
def execLdImm (x : Reg) (nn : Byte) (s : State) : Result := .next (s.setV x nn).advance

/-- ADD VX, NN (R141): modulo 256, VF not touched. -/
def execAddImm (x : Reg) (nn : Byte) (s : State) : Result := .next (s.setV x (s.getV x + nn)).advance

/-- LD VX, VY (R142). -/
def execLdReg (x y : Reg) (s : State) : Result := .next (s.setV x (s.getV y)).advance

/-- OR VX, VY (R143). -/
def execOrReg (x y : Reg) (s : State) : Result := .next (s.setV x (s.getV x ||| s.getV y)).advance

/-- AND VX, VY (R144). -/
def execAndReg (x y : Reg) (s : State) : Result := .next (s.setV x (s.getV x &&& s.getV y)).advance

/-- XOR VX, VY (R145). -/
def execXorReg (x y : Reg) (s : State) : Result := .next (s.setV x (s.getV x ^^^ s.getV y)).advance

/-- ADD VX, VY (R146). -/
def execAddReg (x y : Reg) (s : State) : Result :=
  let a := s.getV x
  let b := s.getV y
  .next (s.writeFlagged Config.vfOrder x (carryFlag a b) (a + b)).advance

/-- SUB VX, VY (R147): VX minus VY. -/
def execSubReg (x y : Reg) (s : State) : Result :=
  let a := s.getV x
  let b := s.getV y
  .next (s.writeFlagged Config.vfOrder x (noBorrowFlag a b) (a - b)).advance

/-- SHR VX (R148): VX in place, VY neither read nor written. -/
def execShr (x _y : Reg) (s : State) : Result :=
  let v := s.getV x
  .next (s.writeFlagged Config.vfOrder x (shiftedOutLow v) (v >>> 1)).advance

/-- SUBN VX, VY (R149): VY minus VX into VX. -/
def execSubn (x y : Reg) (s : State) : Result :=
  let a := s.getV x
  let b := s.getV y
  .next (s.writeFlagged Config.vfOrder x (noBorrowFlag b a) (b - a)).advance

/-- SHL VX (R150): VX in place, VY neither read nor written. -/
def execShl (x _y : Reg) (s : State) : Result :=
  let v := s.getV x
  .next (s.writeFlagged Config.vfOrder x (shiftedOutHigh v) (v <<< 1)).advance

/-- RND VX, NN (R151): one draw, masked; the draw is consumed for every NN. -/
def execRnd (x : Reg) (nn : Byte) (s : State) : Result :=
  .next (s.consumeDraw.setV x (s.randomByte &&& nn)).advance

end Sys2Proof.Machine
end

