-- ==== Sys2Proof/Machine/Sprite.lean ====
section
/-! DEFINITION. Display and sprite rasterizer (spec 43_display.md). The loops of R211 carry the grid and whether a
collision has been seen. -/

namespace Sys2Proof.Machine

/-- One sprite pixel at (x, y): a 1 bit turns the pixel over and collides when it was on (R211). -/
def paintPixel (bit : Bool) (x y : Nat) (p : Display × Bool) : Display × Bool :=
  if bit then (Display.toggle p.1 x y, p.2 || Display.pixel p.1 x y) else p

/-- The column loop of R211 over the columns still to do: most significant bit first, ending at the right edge. -/
def paintRow (b : Byte) (x0 y : Nat) : List Nat → Display × Bool → Display × Bool
  | [], p => p
  | c :: cs, p =>
    if x0 + c > 63 then p
    else paintRow b x0 y cs (paintPixel (b.getLsbD (7 - c)) (x0 + c) y p)

/-- The row loop of R211 over the rows still to do: a row past the bottom, or right of the grid, is skipped whole. -/
def paintRows (m : Memory) (base x0 y0 : Nat) : List Nat → Display × Bool → Display × Bool
  | [], p => p
  | r :: rs, p =>
    if y0 + r > 31 ∨ x0 > 63 then paintRows m base x0 y0 rs p
    else paintRows m base x0 y0 rs (paintRow (m.read (base + r)) x0 (y0 + r) (List.range 8) p)

/-- The draw of N rows of the sprite at I with its origin at (x0, y0): the new grid, and whether it collided (R211). -/
def State.drawSprite (s : State) (x0 y0 n : Nat) : Display × Bool :=
  paintRows s.mem (s.effAddr 0) x0 y0 (List.range n) (s.display, false)

/-- CLS (R210). -/
def execCls (s : State) : Result := .next (s.setDisplay Display.clear).advance

/-- DRW VX, VY, N (R211): all N sprite addresses are checked first, then the draw, then VF. -/
def execDrw (x y : Reg) (n : Height) (s : State) : Result :=
  let p := s.drawSprite (s.getV x).toNat (s.getV y).toNat n.val
  guardRange s (s.effAddr 0) n.val ((s.setDisplay p.1).setV regVF (collisionFlag p.2)).advance

end Sys2Proof.Machine
end

