-- ==== Sys2Proof/Machine/Cycle.lean ====
section
/-! DEFINITION. One fetch-decode-execute cycle (spec 40_control_flow.md section 1). -/

namespace Sys2Proof.Machine

/-- Decode as a step sees it: an illegal word raises `InvalidOpcode` (R113, R264). The fetch gives whole words, so the
decoder's other rejection cannot arise here. -/
def State.decodeFetched (s : State) (w : Word) : Except Fault Instr :=
  match decode w with
  | .ok i => .ok i
  | .error _ => .error (.invalidOpcode s.pc w)

/-- `Step(keys, rnd)` of R110, with the snapshot already in the state: fetch bounds, then decode, then the instruction's
own condition (R269). -/
def cycle (s : State) : Result :=
  orRaise s.fetch fun w => orRaise (s.decodeFetched w) fun i => exec i s

end Sys2Proof.Machine
end

