-- ==== Sys2Proof/Machine/Step.lean ====
section
/-! DEFINITION. The step of the machine: the host's turn, then one cycle (spec 60_exceptions.md R280, R283, R288). -/

namespace Sys2Proof.Machine

/-- One step: the timer ticks the host makes before this `step()` and the snapshot it hands over, then exactly one cycle
(R110, R288). -/
def step (s : State) : Host.Outcome State Fault Refusal := cycle s.takeTurn

/-- The state with an instruction's word stored at pc, where the fetch reads it: the load of a one-instruction program
from outside the machine (R46, R300; log entry 6). -/
def State.withFetchWord (s : State) (nbits w : Nat) : State :=
  s.placeWordAtPc (BitVec.ofNat 16 (w % 2 ^ nbits))

end Sys2Proof.Machine
end

