-- ==== Sys2Proof/Machine/Boot.lean ====
section
/-! DEFINITION. Creation of the state, the core's only reset (spec 70_reset_and_hazards.md R300 to R305). -/

namespace Sys2Proof.Machine

/-- `Create(rom, GLYPH_TABLE)` (R300): `none` stands for a ROM the host could not read (R302). The glyph table goes to
FONT_BASE, the ROM to PROGRAM_BASE, everything else is as after reset. -/
def create (glyphs : Vector Byte 80) (rom : Option (List Byte)) : Except CreateFault State :=
  match rom with
  | none => .error .romLoadError
  | some bytes =>
    if bytes.length > Config.maxRom then .error (.romTooLarge bytes.length)
    else .ok ((State.reset.storeBytes Config.fontBase glyphs.toList).storeBytes Config.programBase bytes)

end Sys2Proof.Machine
end

