-- ==== Sys2Proof/Machine/HostCalls.lean ====
section
/-! DEFINITION. The host's transaction-level interface (spec 60_exceptions.md section 4): the calls it can make between
which the state stands still, and what each gives back. `step` of Step.lean packs the ticks before a step and the step
into one transition; here they are the separate calls of the spec, and a fault leaves a state to go on from. -/

namespace Sys2Proof.Machine

/-- The calls that change the state: `step()` with its snapshot, and `tick_timers()` (R280, R284). Reading the display
and inspecting the state change nothing (R286, R289). -/
inductive HostCall where
  | step (keys : Keys)
  | tick
  deriving DecidableEq, Repr

/-- What a call gives back: `Ok`, a fault (R260), or the model's own refusal, which no instruction answers. -/
inductive Reply where
  | ok
  | fault (f : Fault)
  | refused (r : Refusal)
  deriving DecidableEq, Repr

/-- The numeric code of a step fault (R268). -/
def Fault.code : Fault → Nat
  | .stackOverflow _ => 1
  | .stackUnderflow _ => 2
  | .memoryOutOfBounds _ _ => 3
  | .invalidOpcode _ _ => 4

/-- The numeric code of a boot-time fault (R268). -/
def CreateFault.code : CreateFault → Nat
  | .romLoadError => 5
  | .romTooLarge _ => 6

/-- The numeric code of a reply: 0 is `Ok` (R268). The model's own refusal has none. -/
def Reply.code : Reply → Option Nat
  | .ok => some 0
  | .fault f => some f.code
  | .refused _ => none

/-- The pc a fault reports: the address of the faulting instruction (R267). -/
def Fault.reportedPc : Fault → Word
  | .stackOverflow pc => pc
  | .stackUnderflow pc => pc
  | .memoryOutOfBounds pc _ => pc
  | .invalidOpcode pc _ => pc

/-- `step()` with the snapshot K: on a fault every element of the state is exactly as it was (R260, R266). -/
def hostStep (keys : Keys) (s : State) : State × Reply :=
  match cycle (s.latchKeys keys) with
  | .next t => (t, .ok)
  | .fault f => (s, .fault f)
  | .refused r => (s, .refused r)

/-- One call of the host (R288: each is atomic). -/
def hostCall (c : HostCall) (s : State) : State × Reply :=
  match c with
  | .step keys => hostStep keys s
  | .tick => (s.tickTimers, .ok)

/-- The state after the host's calls, in any interleaving it likes (R288, R312). -/
def hostRun : List HostCall → State → State
  | [], s => s
  | c :: cs, s => hostRun cs (hostCall c s).1

end Sys2Proof.Machine
end

