-- ==== Sys2Proof/Safety.lean ====
section
/-! DEFINITION. The terms claims use: what a good state is, what an instruction may change and read, when it faults, and
what a sprite draws. Each is written from the spec's tables and laws, not from the meanings. -/

namespace Sys2Proof.Machine

/-! ## Good states -/

/-- The invariant: memory is in its canonical form, pc is at most 0x10FE (R25), and every live return address is at
most 4094, where a CALL can have been fetched (R28, R111). That sp is at most 16 (R27) is in its type. -/
def State.Inv (s : State) : Prop :=
  s.mem.wf = true ∧ s.pc.toNat ≤ 0x10FE ∧ ∀ k : Fin 16, k.val < s.sp.val → s.stack[k].toNat ≤ 4094

/-- A state the machine can step from without a fetch fault (R111). -/
def State.Fetchable (s : State) : Prop := s.pc.toNat ≤ 4094

/-- The word at pc, high byte first (R53, R112). -/
def State.wordAtPc (s : State) : Word := s.byteAt s.pc.toNat ++ s.byteAt (s.pc.toNat + 1)

/-- Where pc leaves no room for two bytes the next fetch faults (R111); the jumps and skips speak of it. -/
def State.NextFetchFaultsPastEnd (s : State) : Prop :=
  4094 < s.pc.toNat → step s = .fault (.memoryOutOfBounds s.pc (max s.pc.toNat 4096))

/-! ## Frames -/

/-- The parts of the state other than the general registers and pc. -/
inductive Part where
  | index
  | sp
  | stack
  | dt
  | st
  | display
  | memory
  | random
  deriving DecidableEq, Repr

/-- A part reads the same in two states: memory by every byte, the display by every pixel, the stack by every slot. -/
def Part.Same (s t : State) : Part → Prop
  | .index => t.index = s.index
  | .sp => t.sp = s.sp
  | .stack => ∀ k : Fin 16, t.stack[k] = s.stack[k]
  | .dt => t.dt = s.dt
  | .st => t.st = s.st
  | .display => ∀ x y, x < 64 → y < 32 → t.display.pixel x y = s.display.pixel x y
  | .memory => ∀ a, t.byteAt a = s.byteAt a
  | .random => t.randomIn = s.randomIn ∧ t.drawCount = s.drawCount

/-- Every register but those listed and every part but those listed is unchanged, and so is the host's side. pc may
change. -/
def Kept (s t : State) (regs : List Reg) (parts : List Part) : Prop :=
  (∀ r, r ∉ regs → t.getV r = s.getV r) ∧ (∀ p, p ∉ parts → p.Same s t) ∧
  t.keys = s.keys ∧ t.turns = s.turns ∧ t.turnCount = s.turnCount

/-- V[0] to V[X] as register numbers. -/
def regsThrough (x : Reg) : List Reg := (List.finRange 16).filter (fun r => decide (r ≤ x))

/-- The registers an instruction writes: the "writes" column of R22. -/
def writtenRegs : Instr → List Reg
  | .cls => []
  | .ret => []
  | .jp _ => []
  | .call _ => []
  | .seImm _ _ => []
  | .sneImm _ _ => []
  | .seReg _ _ => []
  | .ldImm x _ => [x]
  | .addImm x _ => [x]
  | .ldReg x _ => [x]
  | .orReg x _ => [x]
  | .andReg x _ => [x]
  | .xorReg x _ => [x]
  | .addReg x _ => [regVF, x]
  | .subReg x _ => [regVF, x]
  | .shr x _ => [regVF, x]
  | .subn x _ => [regVF, x]
  | .shl x _ => [regVF, x]
  | .sneReg _ _ => []
  | .ldI _ => []
  | .jpV0 _ => []
  | .rnd x _ => [x]
  | .drw _ _ _ => [regVF]
  | .skp _ => []
  | .sknp _ => []
  | .ldFromDt x => [x]
  | .waitKey x => [x]
  | .ldDt _ => []
  | .ldSt _ => []
  | .addI _ => []
  | .ldFont _ => []
  | .ldBcd _ => []
  | .storeRegs _ => []
  | .loadRegs x => regsThrough x

/-- The registers an instruction reads: the "reads" column of R22. -/
def readRegs : Instr → List Reg
  | .cls => []
  | .ret => []
  | .jp _ => []
  | .call _ => []
  | .seImm x _ => [x]
  | .sneImm x _ => [x]
  | .seReg x y => [x, y]
  | .ldImm _ _ => []
  | .addImm x _ => [x]
  | .ldReg _ y => [y]
  | .orReg x y => [x, y]
  | .andReg x y => [x, y]
  | .xorReg x y => [x, y]
  | .addReg x y => [x, y]
  | .subReg x y => [x, y]
  | .shr x _ => [x]
  | .subn x y => [x, y]
  | .shl x _ => [x]
  | .sneReg x y => [x, y]
  | .ldI _ => []
  | .jpV0 _ => [regV0]
  | .rnd _ _ => []
  | .drw x y _ => [x, y]
  | .skp x => [x]
  | .sknp x => [x]
  | .ldFromDt _ => []
  | .waitKey _ => []
  | .ldDt x => [x]
  | .ldSt x => [x]
  | .addI x => [x]
  | .ldFont x => [x]
  | .ldBcd x => [x]
  | .storeRegs x => regsThrough x
  | .loadRegs _ => []

/-- The parts an instruction may change: I by ANNN, FX1E, FX29 (R26); sp by CALL and RET (R27); the slots by CALL alone
(R28); DT by FX15, ST by FX18 (R29); the display by 00E0 and DXYN (R30); memory by FX33 and FX55 (R51); the random
capability by CXNN (R282). -/
def writtenParts : Instr → List Part
  | .cls => [.display]
  | .ret => [.sp]
  | .jp _ => []
  | .call _ => [.sp, .stack]
  | .seImm _ _ => []
  | .sneImm _ _ => []
  | .seReg _ _ => []
  | .ldImm _ _ => []
  | .addImm _ _ => []
  | .ldReg _ _ => []
  | .orReg _ _ => []
  | .andReg _ _ => []
  | .xorReg _ _ => []
  | .addReg _ _ => []
  | .subReg _ _ => []
  | .shr _ _ => []
  | .subn _ _ => []
  | .shl _ _ => []
  | .sneReg _ _ => []
  | .ldI _ => [.index]
  | .jpV0 _ => []
  | .rnd _ _ => [.random]
  | .drw _ _ _ => [.display]
  | .skp _ => []
  | .sknp _ => []
  | .ldFromDt _ => []
  | .waitKey _ => []
  | .ldDt _ => [.dt]
  | .ldSt _ => [.st]
  | .addI _ => [.index]
  | .ldFont _ => [.index]
  | .ldBcd _ => [.memory]
  | .storeRegs _ => [.memory]
  | .loadRegs _ => []

/-- An instruction that neither jumps nor skips nor waits: it sets `pc <- pc + 2` whenever it goes on (R114). -/
def plainAdvance : Instr → Bool
  | .ret | .jp _ | .call _ | .jpV0 _ => false
  | .seImm _ _ | .sneImm _ _ | .seReg _ _ | .sneReg _ _ | .skp _ | .sknp _ => false
  | .waitKey _ => false
  | .cls | .ldImm _ _ | .addImm _ _ | .ldReg _ _ | .orReg _ _ | .andReg _ _ | .xorReg _ _ => true
  | .addReg _ _ | .subReg _ _ | .shr _ _ | .subn _ _ | .shl _ _ | .rnd _ _ | .drw _ _ _ => true
  | .ldI _ | .addI _ | .ldFont _ | .ldBcd _ | .storeRegs _ | .loadRegs _ => true
  | .ldFromDt _ | .ldDt _ | .ldSt _ => true

/-! ## Faults -/

/-- `MemoryOutOfBounds` for an access of n bytes from I on, at the lowest address outside (R263, R267). -/
def indexedFault (s : State) (n : Nat) : Option Fault :=
  if n ≥ 1 ∧ s.index.toNat + n - 1 > 4095 then some (.memoryOutOfBounds s.pc (max s.index.toNat 4096)) else none

/-- The fault an instruction raises when it executes in a state, if it raises one: R261, R262 and R263. -/
def execFault (s : State) : Instr → Option Fault
  | .ret => if s.sp = 0 then some (.stackUnderflow s.pc) else none
  | .call _ => if s.sp = 16 then some (.stackOverflow s.pc) else none
  | .drw _ _ n => indexedFault s n.val
  | .ldBcd _ => indexedFault s 3
  | .storeRegs x => indexedFault s (x.val + 1)
  | .loadRegs x => indexedFault s (x.val + 1)
  | .cls | .jp _ | .seImm _ _ | .sneImm _ _ | .seReg _ _ | .sneReg _ _ | .jpV0 _ => none
  | .ldImm _ _ | .addImm _ _ | .ldReg _ _ | .orReg _ _ | .andReg _ _ | .xorReg _ _ => none
  | .addReg _ _ | .subReg _ _ | .shr _ _ | .subn _ _ | .shl _ _ | .rnd _ _ => none
  | .ldI _ | .addI _ | .ldFont _ => none
  | .skp _ | .sknp _ | .waitKey _ | .ldFromDt _ | .ldDt _ | .ldSt _ => none

/-! ## Sprites -/

/-- The clipping rule of R212: the sprite of N rows at I with its origin at (x0, y0) turns the pixel (x, y) over exactly
when the pixel lies in the sprite's 8 columns and N rows and its bit, bit 7-c of `M[I+r]`, is 1. -/
def spriteCovers (s : State) (x0 y0 n x y : Nat) : Bool :=
  decide (x0 ≤ x) && decide (x ≤ x0 + 7) && decide (y0 ≤ y) && decide (y < y0 + n) &&
    (s.byteAt (s.index.toNat + (y - y0))).getLsbD (7 - (x - x0))

/-! ## Nested calls -/

/-- The next state, if the answer is one. -/
def nextState : Result → Option State
  | .next t => some t
  | .fault _ => none
  | .refused _ => none

/-- Nested subroutines: CALL the first target, run its body (any change of state), do the rest inside, then RET. -/
def nestedCalls : List (Addr12 × (State → State)) → State → Option State
  | [], s => some s
  | (target, body) :: inner, s =>
    match nextState (exec (.call target) s) with
    | none => none
    | some called =>
      match nestedCalls inner (body called) with
      | none => none
      | some done => nextState (exec .ret done)

/-- CALLs one after another, with no RET. -/
def callChain : List Addr12 → State → Option State
  | [], s => some s
  | target :: rest, s =>
    match nextState (exec (.call target) s) with
    | none => none
    | some called => callChain rest called

end Sys2Proof.Machine
end

