-- ==== Sys2Proof/Certificates/Slice0/Obligations.lean ====
section
/-! DEFINITION. The statements for the provers. Each formalises rules of the spec; where a clause rests on a decision or
an inference that the spec marks as its own, the docstring names it. -/

open Sys2Proof
open Sys2Proof.Machine

/-! ## Encoding -/

/-- Words written out from the opcode map of R87 (and the three words R93 attests) decode to the instructions they stand
for. The patterns other than 6XNN and 8XY4 are the spec's general knowledge (G1). -/
def Obligations.WrittenOutWordsDecode : Prop :=
  decode 0x6005 = .ok (.ldImm 0 5) ∧ decode 0x6103 = .ok (.ldImm 1 3) ∧ decode 0x8014 = .ok (.addReg 0 1) ∧
  decode 0x00E0 = .ok .cls ∧ decode 0x00EE = .ok .ret ∧ decode 0x2ABC = .ok (.call 0xABC) ∧
  decode 0x5120 = .ok (.seReg 1 2) ∧ decode 0xB300 = .ok (.jpV0 0x300) ∧ decode 0xD12F = .ok (.drw 1 2 15) ∧
  decode 0xE39E = .ok (.skp 3) ∧ decode 0xF20A = .ok (.waitKey 2) ∧ decode 0xFF55 = .ok (.storeRegs 15) ∧
  decode 0x0123 = .error (.invalidOpcode 0x0123) ∧ decode 0x5121 = .error (.invalidOpcode 0x5121) ∧
  decode 0x8128 = .error (.invalidOpcode 0x8128) ∧ decode 0xF108 = .error (.invalidOpcode 0xF108)

/-- Decoding an instruction's word gives the instruction back, with every operand at every value (R81, R82, R87). -/
def Obligations.DecodeOfEncodeIsTheInstruction : Prop :=
  ∀ i : Instr, decode (encode i) = .ok i

/-- A word that decodes is the word of the instruction it decodes to: no bit of it is dropped, the unused Y of 8XY6 and
8XYE included (R81, R86). -/
def Obligations.EncodeOfDecodeIsTheWord : Prop :=
  ∀ (w : Word) (i : Instr), decode w = .ok i → encode i = w

/-- The decoder, written from the fields, accepts exactly the words that the masks and matches of R87's table cover, each
as the instruction of the row that covers it; every other word is `InvalidOpcode` (R87, R88; strictness is the spec's
decision D6). -/
def Obligations.DecoderAgreesWithTheOpcodeTable : Prop :=
  (∀ w i, decode w = .ok i → i.row ∈ opcodeTable ∧ i.row.covers w = true) ∧
  (∀ w, wordWellFormed w = true → ∃ i, decode w = .ok i) ∧
  (∀ w, wordWellFormed w = false → decode w = .error (.invalidOpcode w))

/-- At most one row of the table covers any word (R87). -/
def Obligations.AtMostOneRowCoversAWord : Prop :=
  ∀ (w : Word) (r r' : OpcodeRow), r ∈ opcodeTable → r' ∈ opcodeTable → r.covers w = true → r'.covers w = true → r = r'

/-! ## The cycle -/

/-- When the two bytes at pc decode to an instruction, the step is that instruction's meaning on the state after the
host's turn, and on nothing else (R110, R112, R113). The packing of the turn into the step is the model's choice (log
entries 1 and 3). -/
def Obligations.StepRunsTheDecodedInstruction : Prop :=
  ∀ (s : State) (i : Instr), s.Fetchable → decode s.wordAtPc = .ok i → step s = exec i s.takeTurn

/-- What the turn around the cycle is: `ticks` timer ticks, then the new snapshot; nothing else of the machine changes,
whether the turn was given or is free (R280, R284, R288; log entries 1 and 3). -/
def Obligations.HostTurnIsTicksThenSnapshot : Prop :=
  ∀ s : State,
    s.takeTurn.dt.toNat = s.dt.toNat - s.nextTurn.ticks ∧ s.takeTurn.st.toNat = s.st.toNat - s.nextTurn.ticks ∧
    s.takeTurn.keys = s.nextTurn.keys ∧
    (∀ turn rest, s.turns = turn :: rest → s.nextTurn = turn ∧ s.takeTurn.turns = rest) ∧
    s.takeTurn.pc = s.pc ∧ (∀ r, s.takeTurn.getV r = s.getV r) ∧
    (∀ p : Part, p ≠ .dt → p ≠ .st → p.Same s s.takeTurn)

/-- R111, R112: at pc up to 4094 the fetch gives the word M[pc] : M[pc+1]; at pc = 4095 the step raises
`MemoryOutOfBounds` with address 4096, and at pc of 4096 or more with address pc. -/
def Obligations.FetchPastTheEndFaults : Prop :=
  ∀ s : State,
    (s.pc.toNat ≤ 4094 → s.fetch = .ok s.wordAtPc) ∧
    (s.pc.toNat = 4095 → step s = .fault (.memoryOutOfBounds s.pc 4096)) ∧
    (4096 ≤ s.pc.toNat → step s = .fault (.memoryOutOfBounds s.pc s.pc.toNat))

/-- An illegal word raises `InvalidOpcode` with the pc and the word (R88, R113, R264, R267; the policy is the spec's
decision D5, the information D7). -/
def Obligations.IllegalWordFaults : Prop :=
  ∀ s : State, s.Fetchable → wordWellFormed s.wordAtPc = false → step s = .fault (.invalidOpcode s.pc s.wordAtPc)

/-- Every instruction goes on to a next state unless its own fault condition of R261 to R263 holds, and then it raises
exactly that fault; no instruction is refused. (The bounds check of clipped sprite rows is the spec's decision D16.) -/
def Obligations.InstructionsFaultExactlyWhenTheirConditionHolds : Prop :=
  ∀ (i : Instr) (s : State),
    (∀ f, execFault s i = some f → exec i s = .fault f) ∧ (execFault s i = none → ∃ t, exec i s = .next t)

/-- No step is refused: every word either runs or raises a fault of the spec, and the fault reports the pc of the
instruction (R260, R267). -/
def Obligations.StepsRunOrFaultWithTheirPc : Prop :=
  ∀ s : State, (∃ t, step s = .next t) ∨ (∃ f, step s = .fault f ∧ f.reportedPc = s.pc)

/-- A fault depends only on pc, memory, sp and I: in a state that agrees on these, whatever its registers, timers, display,
stack slots, host's turns and random bytes, the step raises the same fault (R273, which the spec derives). -/
def Obligations.FaultsIgnoreInputsTimersAndRegisters : Prop :=
  ∀ (s u : State) (f : Fault), u.pc = s.pc → u.index = s.index → u.sp = s.sp → u.mem = s.mem →
    step s = .fault f → step u = .fault f

/-! ## The host's calls -/

/-- R266: a faulting `step()` leaves every element of the state exactly as it was and reports its pc; one that returns Ok
has run the whole instruction. -/
def Obligations.FaultsAreAllOrNothing : Prop :=
  ∀ (s : State) (keys : Keys),
    (∀ f, (hostStep keys s).2 = .fault f → (hostStep keys s).1 = s ∧ f.reportedPc = s.pc) ∧
    ((hostStep keys s).2 = .ok →
      ∃ i, decode s.wordAtPc = .ok i ∧ exec i (s.latchKeys keys) = .next (hostStep keys s).1)

/-- A faulted core makes no progress: whatever ticks and further steps the host calls, the next `step()` raises the same
fault, and only DT and ST have moved (R273, which the spec derives). -/
def Obligations.FaultedCoreMakesNoProgress : Prop :=
  ∀ (s : State) (keys keys' : Keys) (f : Fault) (calls : List HostCall), (hostStep keys s).2 = .fault f →
    (hostStep keys' (hostRun calls s)).2 = .fault f ∧
    (∀ r, (hostRun calls s).getV r = s.getV r) ∧ (hostRun calls s).pc = s.pc ∧
    (∀ p : Part, p ≠ .dt → p ≠ .st → p.Same s (hostRun calls s))

/-- A step that goes on is the spec's separate calls: it ends in the state that the turn's ticks followed by `step()` with
its snapshot give, but for the model's record of turns (R280, R284, R288). A step that faults is not spoken of here. The
packing is the model's choice (log entries 1 and 3). -/
def Obligations.StepIsTheHostsTicksThenStep : Prop :=
  ∀ s t : State, step s = .next t →
    hostRun (List.replicate s.nextTurn.ticks HostCall.tick ++ [HostCall.step s.nextTurn.keys]) s =
      { t with turns := s.turns, turnCount := s.turnCount }

/-- R284: each tick takes a counter down by one and never below zero, and changes nothing else; it never faults. -/
def Obligations.TickLowersBothTimersToZero : Prop :=
  ∀ s : State, (hostCall .tick s).2 = .ok ∧
    ((hostCall .tick s).1.dt.toNat = if s.dt.toNat > 0 then s.dt.toNat - 1 else 0) ∧
    ((hostCall .tick s).1.st.toNat = if s.st.toNat > 0 then s.st.toNat - 1 else 0) ∧
    (hostCall .tick s).1.pc = s.pc ∧ Kept s (hostCall .tick s).1 [] [.dt, .st] ∧
    s.tickDelay.tickSound = (hostCall .tick s).1 ∧ s.tickSound.tickDelay = (hostCall .tick s).1

/-- DT never rises over a step except through FX15, ST except through FX18 (R312, which the spec derives; R29). -/
def Obligations.TimersRiseOnlyThroughTheirWrites : Prop :=
  ∀ s t : State, step s = .next t →
    ((∀ x, decode s.wordAtPc ≠ .ok (.ldDt x)) → t.dt.toNat ≤ s.dt.toNat) ∧
    ((∀ x, decode s.wordAtPc ≠ .ok (.ldSt x)) → t.st.toNat ≤ s.st.toNat)

/-- R286: the display read port gives the pixel of each cell at the row-major index. -/
def Obligations.DisplayPortIsRowMajor : Prop :=
  ∀ (s : State) (x y : Nat), x < 64 → y < 32 → s.displayCell (x + y * 64) = s.display.pixel x y

/-! ## Invariant -/

/-- The invariant holds after reset (R28, R41, R43, R46; derived). -/
def Obligations.ResetMeetsTheInvariant : Prop := State.reset.Inv

/-- Every step keeps the invariant, from every state that has it: memory stays canonical, pc stays at most 0x10FE (R25,
which the spec derives), and every live return address stays at most 4094, where an instruction can be
fetched (R28, R111). -/
def Obligations.EveryStepKeepsTheInvariant : Prop :=
  ∀ s t : State, s.Inv → step s = .next t → t.Inv

/-- So does any interleaving of the host's calls, faults among them (R288; derived). -/
def Obligations.EveryHostCallKeepsTheInvariant : Prop :=
  ∀ (calls : List HostCall) (s : State), s.Inv → (hostRun calls s).Inv

/-! ## Reset and creation -/

/-- R40, R42, R43, R44, R45: after reset every general register, I, sp, every call-stack slot, DT and ST are zero and every
pixel is off. -/
def Obligations.ResetZeroesRegistersStackTimersAndDisplay : Prop :=
  (∀ i : Reg, State.reset.getV i = 0) ∧ State.reset.index = 0 ∧ State.reset.sp = 0 ∧
  (∀ k : Fin 16, State.reset.stack[k] = 0) ∧ State.reset.dt = 0 ∧ State.reset.st = 0 ∧
  (∀ x y, x < 64 → y < 32 → State.reset.display.pixel x y = false)

/-- The entry point is 0x200 (R41; the spec's decision D22), and with an empty ROM the first step fetches 0x0000 and
faults (R303, which the spec derives). -/
def Obligations.ResetStartsAtTheProgramBase : Prop :=
  State.reset.pc = 0x200 ∧ step State.reset = .fault (.invalidOpcode 0x200 0x0000) ∧
  create Config.glyphTable (some []) = .ok State.reset

/-- R301: a ROM longer than 3584 bytes is rejected and no state is made; one of exactly 3584 bytes is accepted and fills
0x200 to 0xFFF. -/
def Obligations.OversizedRomIsRejected : Prop :=
  ∀ (glyphs : Vector Byte 80) (rom : List Byte),
    (3584 < rom.length → create glyphs (some rom) = .error (.romTooLarge rom.length)) ∧
    (rom.length = 3584 → ∃ s, create glyphs (some rom) = .ok s ∧
      ∀ j : Fin rom.length, s.byteAt (0x200 + j.val) = rom[j])

/-- R46 and R300: after creation memory holds the glyph table, the ROM in file order and zeros, every other element is
zero and pc is 0x200; an unreadable or too long ROM gives no state. -/
def Obligations.CreationLoadsGlyphsAndRom : Prop :=
  (∀ glyphs, create glyphs none = .error .romLoadError) ∧
  ∀ (glyphs : Vector Byte 80) (rom : List Byte),
    (rom.length > 3584 → create glyphs (some rom) = .error (.romTooLarge rom.length)) ∧
    (rom.length ≤ 3584 → ∃ s, create glyphs (some rom) = .ok s ∧ s.mem.wf = true ∧
      (∀ a : Fin 80, s.byteAt a.val = glyphs[a]) ∧
      (∀ j : Fin rom.length, s.byteAt (0x200 + j.val) = rom[j]) ∧
      (∀ a, 80 ≤ a → a < 0x200 ∨ 0x200 + rom.length ≤ a → s.byteAt a = 0) ∧
      (∀ r, s.getV r = 0) ∧ s.pc = 0x200 ∧ s.index = 0 ∧ s.sp = 0 ∧ (∀ k : Fin 16, s.stack[k] = 0) ∧
      s.dt = 0 ∧ s.st = 0 ∧ (∀ x y, x < 64 → y < 32 → s.display.pixel x y = false))

/-! ## Whole-machine rules -/

/-- Whatever the instruction, a register outside R22's "writes" column and a part of the machine outside those of R26 to
R30, R51 and R282 is unchanged; in particular VF changes as a side effect only in the six instructions of R21. -/
def Obligations.EveryInstructionKeepsWhatItDoesNotWrite : Prop :=
  ∀ (i : Instr) (s t : State), exec i s = .next t → Kept s t (writtenRegs i) (writtenParts i)

/-- Every instruction that neither jumps, skips nor waits sets pc to pc + 2 (R114). -/
def Obligations.PlainInstructionsAdvanceByTwo : Prop :=
  ∀ (i : Instr) (s t : State), plainAdvance i = true → exec i s = .next t → t.pc = s.pc + 2

/-- Whatever the instruction, only the registers in R22's "reads" column matter: with any other values in the other
registers it raises the same fault, or ends with the same pc and parts, and each register ends the same in both runs or
untouched in both (R12, R22). -/
def Obligations.InstructionsReadOnlyTheirRegisters : Prop :=
  ∀ (i : Instr) (s u : State), (∀ r ∈ readRegs i, u.getV r = s.getV r) → u = { s with v := u.v } →
    (∀ f, exec i s = .fault f → exec i u = .fault f) ∧
    (∀ t, exec i s = .next t → ∃ t', exec i u = .next t' ∧ t' = { t with v := t'.v } ∧
      ∀ r, t'.getV r = t.getV r ∨ (t'.getV r = u.getV r ∧ t.getV r = s.getV r))

/-! ## Register loads and arithmetic -/

/-- R140: LD VX, NN loads the immediate into VX and changes nothing else, VF only as the destination; its encoding 6XNN is
the one R93 attests. -/
def Obligations.LoadImmediateSetsTheRegister : Prop :=
  ∀ (s : State) (x : Reg) (nn : Byte),
    decode (BitVec.ofNat 16 (0x6000 + 0x100 * x.val + nn.toNat)) = .ok (.ldImm x nn) ∧
    ∃ t, exec (.ldImm x nn) s = .next t ∧ t.getV x = nn ∧ t.pc = s.pc + 2 ∧ Kept s t [x] []

/-- R142: LD VX, VY copies; with X = Y only pc changes. -/
def Obligations.RegisterCopyCopies : Prop :=
  ∀ (s : State) (x y : Reg),
    decode (BitVec.ofNat 16 (0x8000 + 0x100 * x.val + 0x10 * y.val)) = .ok (.ldReg x y) ∧
    ∃ t, exec (.ldReg x y) s = .next t ∧ t.getV x = s.getV y ∧ t.pc = s.pc + 2 ∧ Kept s t [x] [] ∧
      (x = y → Kept s t [] [])

/-- R141: ADD VX, NN is modulo 256 and touches no flag. -/
def Obligations.AddImmediateWrapsAndKeepsVF : Prop :=
  ∀ (s : State) (x : Reg) (nn : Byte),
    decode (BitVec.ofNat 16 (0x7000 + 0x100 * x.val + nn.toNat)) = .ok (.addImm x nn) ∧
    ∃ t, exec (.addImm x nn) s = .next t ∧ (t.getV x).toNat = ((s.getV x).toNat + nn.toNat) % 256 ∧
      t.pc = s.pc + 2 ∧ Kept s t [x] []

/-- R143, R144, R145: OR, AND and XOR act bit by bit and touch no flag. -/
def Obligations.LogicalOperationsActBitwise : Prop :=
  ∀ (s : State) (x y : Reg),
    decode (BitVec.ofNat 16 (0x8001 + 0x100 * x.val + 0x10 * y.val)) = .ok (.orReg x y) ∧
    decode (BitVec.ofNat 16 (0x8002 + 0x100 * x.val + 0x10 * y.val)) = .ok (.andReg x y) ∧
    decode (BitVec.ofNat 16 (0x8003 + 0x100 * x.val + 0x10 * y.val)) = .ok (.xorReg x y) ∧
    (∃ t, exec (.orReg x y) s = .next t ∧
      (∀ k, (t.getV x).getLsbD k = ((s.getV x).getLsbD k || (s.getV y).getLsbD k)) ∧
      t.pc = s.pc + 2 ∧ Kept s t [x] []) ∧
    (∃ t, exec (.andReg x y) s = .next t ∧
      (∀ k, (t.getV x).getLsbD k = ((s.getV x).getLsbD k && (s.getV y).getLsbD k)) ∧
      t.pc = s.pc + 2 ∧ Kept s t [x] []) ∧
    (∃ t, exec (.xorReg x y) s = .next t ∧
      (∀ k, (t.getV x).getLsbD k = ((s.getV x).getLsbD k ^^ (s.getV y).getLsbD k)) ∧
      t.pc = s.pc + 2 ∧ Kept s t [x] [])

/-- R146, R158: ADD VX, VY leaves the sum modulo 256 in VX and the carry in VF. With X = F the sum stays in VF: the
spec's decision D3. -/
def Obligations.AddSetsSumAndCarry : Prop :=
  ∀ (s : State) (x y : Reg), ∃ t, exec (.addReg x y) s = .next t ∧
    (t.getV x).toNat = ((s.getV x).toNat + (s.getV y).toNat) % 256 ∧
    (x ≠ regVF → (t.getV regVF).toNat = if (s.getV x).toNat + (s.getV y).toNat > 255 then 1 else 0) ∧
    t.pc = s.pc + 2 ∧ Kept s t [regVF, x] []

/-- R147, R149, R158: SUB and SUBN leave the difference modulo 256 in VX and, in VF, whether the minuend was strictly
greater. With X = F the difference stays in VF: the spec's decision D3. -/
def Obligations.SubtractionsSetDifferenceAndNoBorrow : Prop :=
  ∀ (s : State) (x y : Reg),
    (∃ t, exec (.subReg x y) s = .next t ∧
      ((t.getV x).toNat : Int) = (((s.getV x).toNat : Int) - (s.getV y).toNat) % 256 ∧
      (x ≠ regVF → (t.getV regVF).toNat = if (s.getV x).toNat > (s.getV y).toNat then 1 else 0) ∧
      t.pc = s.pc + 2 ∧ Kept s t [regVF, x] []) ∧
    (∃ t, exec (.subn x y) s = .next t ∧
      ((t.getV x).toNat : Int) = (((s.getV y).toNat : Int) - (s.getV x).toNat) % 256 ∧
      (x ≠ regVF → (t.getV regVF).toNat = if (s.getV y).toNat > (s.getV x).toNat then 1 else 0) ∧
      t.pc = s.pc + 2 ∧ Kept s t [regVF, x] [])

/-- R148, R150, R158: SHR and SHL shift VX by one and leave the bit shifted out in VF; VY plays no part (the spec's
decision D4). With X = F the shifted value stays in VF: the spec's decision D3. -/
def Obligations.ShiftsSetResultAndBitShiftedOut : Prop :=
  ∀ (s : State) (x y : Reg),
    (∃ t, exec (.shr x y) s = .next t ∧ (t.getV x).toNat = (s.getV x).toNat / 2 ∧
      (x ≠ regVF → (t.getV regVF).toNat = (s.getV x).toNat % 2) ∧ t.pc = s.pc + 2 ∧ Kept s t [regVF, x] []) ∧
    (∃ t, exec (.shl x y) s = .next t ∧ (t.getV x).toNat = 2 * (s.getV x).toNat % 256 ∧
      (x ≠ regVF → (t.getV regVF).toNat = (s.getV x).toNat / 128) ∧ t.pc = s.pc + 2 ∧ Kept s t [regVF, x] [])

/-- R151, R282: RND takes exactly one byte of the random capability, whatever NN is, and leaves it masked in VX; when no
byte is given beforehand some byte is drawn, and the claim holds for every one (log entry 2). -/
def Obligations.RandomDrawsOneByteAndMasksIt : Prop :=
  ∀ (s : State) (x : Reg) (nn : Byte), ∃ t r, exec (.rnd x nn) s = .next t ∧ t.getV x = r &&& nn ∧
    (∀ r' rest, s.randomIn = r' :: rest → r = r' ∧ t.randomIn = rest) ∧ (s.randomIn = [] → t.randomIn = []) ∧
    t.drawCount = s.drawCount + 1 ∧ t.pc = s.pc + 2 ∧ Kept s t [x] [.random]

/-- R13: the two readings of VF_ORDER agree when X is not F; when X is F one leaves the result and the other the flag. The
variants are the spec's parameters (log entry 7). -/
def Obligations.FlagOrderMattersOnlyForVF : Prop :=
  ∀ (s : State) (x : Reg) (flag result : Byte),
    (x ≠ regVF → s.writeFlagged .flagThenResult x flag result = s.writeFlagged .resultThenFlag x flag result) ∧
    (x = regVF → (s.writeFlagged .flagThenResult x flag result).getV regVF = result ∧
      (s.writeFlagged .resultThenFlag x flag result).getV regVF = flag)

/-! ## Control transfer -/

/-- R116, R122: JP NNN goes to its address, also to an odd one (R55, the spec's decision D9) and to itself, which R116
derives; JP V0, NNN adds V0 without reduction. A target past 4094 makes the next fetch fault. -/
def Obligations.JumpsGoToTheirTargets : Prop :=
  ∀ (s : State) (nnn : Addr12),
    decode (BitVec.ofNat 16 (0x1000 + nnn.toNat)) = .ok (.jp nnn) ∧
    decode (BitVec.ofNat 16 (0xB000 + nnn.toNat)) = .ok (.jpV0 nnn) ∧
    (∃ t, exec (.jp nnn) s = .next t ∧ t.pc.toNat = nnn.toNat ∧ Kept s t [] [] ∧ t.NextFetchFaultsPastEnd) ∧
    (∃ t, exec (.jpV0 nnn) s = .next t ∧ t.pc.toNat = nnn.toNat + (s.getV 0).toNat ∧ Kept s t [] [] ∧
      t.NextFetchFaultsPastEnd)

/-- R118, R119: SE VX, NN skips exactly when VX equals NN, SNE VX, NN exactly when it does not; nothing but pc changes, and
past the end of memory the next fetch faults. -/
def Obligations.ImmediateSkipsCompareAndSkip : Prop :=
  ∀ (s : State) (x : Reg) (nn : Byte),
    decode (BitVec.ofNat 16 (0x3000 + 0x100 * x.val + nn.toNat)) = .ok (.seImm x nn) ∧
    decode (BitVec.ofNat 16 (0x4000 + 0x100 * x.val + nn.toNat)) = .ok (.sneImm x nn) ∧
    (∃ t, exec (.seImm x nn) s = .next t ∧ (s.getV x = nn → t.pc = s.pc + 4) ∧ (s.getV x ≠ nn → t.pc = s.pc + 2) ∧
      Kept s t [] [] ∧ t.NextFetchFaultsPastEnd) ∧
    (∃ t, exec (.sneImm x nn) s = .next t ∧ (s.getV x ≠ nn → t.pc = s.pc + 4) ∧ (s.getV x = nn → t.pc = s.pc + 2) ∧
      Kept s t [] [] ∧ t.NextFetchFaultsPastEnd)

/-- R120, R121: SE VX, VY skips exactly when the registers are equal, SNE VX, VY exactly when they are not; with X = Y the
first always skips and the second never. Nothing but pc changes. -/
def Obligations.RegisterSkipsCompareAndSkip : Prop :=
  ∀ (s : State) (x y : Reg),
    decode (BitVec.ofNat 16 (0x5000 + 0x100 * x.val + 0x10 * y.val)) = .ok (.seReg x y) ∧
    decode (BitVec.ofNat 16 (0x9000 + 0x100 * x.val + 0x10 * y.val)) = .ok (.sneReg x y) ∧
    (∃ t, exec (.seReg x y) s = .next t ∧ (s.getV x = s.getV y → t.pc = s.pc + 4) ∧
      (s.getV x ≠ s.getV y → t.pc = s.pc + 2) ∧ (x = y → t.pc = s.pc + 4) ∧ Kept s t [] []) ∧
    (∃ t, exec (.sneReg x y) s = .next t ∧ (s.getV x ≠ s.getV y → t.pc = s.pc + 4) ∧
      (s.getV x = s.getV y → t.pc = s.pc + 2) ∧ (x = y → t.pc = s.pc + 2) ∧ Kept s t [] [])

/-- R117, R261: CALL pushes its own address and jumps, or raises `StackOverflow` with 16 live addresses. The capacity and
the depth counter are the spec's decision D2. -/
def Obligations.CallPushesItsAddress : Prop :=
  ∀ (s : State) (nnn : Addr12),
    (s.sp = 16 → exec (.call nnn) s = .fault (.stackOverflow s.pc)) ∧
    (s.sp.val < 16 → ∃ t, exec (.call nnn) s = .next t ∧ t.sp.val = s.sp.val + 1 ∧ t.pc.toNat = nnn.toNat ∧
      (∀ k : Fin 16, t.stack[k] = if k.val = s.sp.val then s.pc else s.stack[k]) ∧ Kept s t [] [.sp, .stack])

/-- R115, R262: RET goes to the address after the CALL, the popped slot keeping its value (the spec's decision D28), or
raises `StackUnderflow` on an empty stack. -/
def Obligations.ReturnGoesPastTheCall : Prop :=
  ∀ s : State,
    (s.sp = 0 → exec .ret s = .fault (.stackUnderflow s.pc)) ∧
    (∀ k : Fin 16, s.sp.val = k.val + 1 → ∃ t, exec .ret s = .next t ∧ t.sp.val = k.val ∧
      t.pc = s.stack[k] + 2 ∧ Kept s t [] [.sp])

/-- R123, which the spec derives: nested calls, each with any body that keeps the stack, each matched by a return, go back
to the address after the outermost CALL with sp and every live slot as they were. -/
def Obligations.NestedCallsReturnPastTheirCalls : Prop :=
  ∀ (calls : List (Addr12 × (State → State))) (s : State), calls ≠ [] → s.sp.val + calls.length ≤ 16 →
    (∀ c ∈ calls, ∀ u : State, (c.2 u).sp = u.sp ∧ (c.2 u).stack = u.stack) →
    ∃ t, nestedCalls calls s = some t ∧ t.pc = s.pc + 2 ∧ t.sp = s.sp ∧
      ∀ k : Fin 16, k.val < s.sp.val → t.stack[k] = s.stack[k]

/-- R123, R261, which the spec derives with its decision D2: sixteen calls nest, and the seventeenth overflows. -/
def Obligations.SeventeenthCallOverflows : Prop :=
  ∀ (s : State) (targets : List Addr12) (last : Addr12), s.sp = 0 → targets.length = 16 →
    ∃ t, callChain targets s = some t ∧ t.sp = 16 ∧ exec (.call last) t = .fault (.stackOverflow t.pc)

/-! ## Index register and memory transfer -/

/-- R180: LD I, NNN sets I to the zero-extended address and changes nothing else. -/
def Obligations.LoadIndexZeroExtends : Prop :=
  ∀ (s : State) (nnn : Addr12),
    decode (BitVec.ofNat 16 (0xA000 + nnn.toNat)) = .ok (.ldI nnn) ∧
    ∃ t, exec (.ldI nnn) s = .next t ∧ t.index.toNat = nnn.toNat ∧ t.pc = s.pc + 2 ∧ Kept s t [] [.index]

/-- R181, R182: ADD I, VX is modulo 2^16 and sets no flag (the spec's decision D10); LD F, VX is V[X] * 5 for every V[X]
(the spec's decision D11). -/
def Obligations.IndexArithmetic : Prop :=
  ∀ (s : State) (x : Reg),
    (∃ t, exec (.addI x) s = .next t ∧ t.index.toNat = (s.index.toNat + (s.getV x).toNat) % 65536 ∧
      t.pc = s.pc + 2 ∧ Kept s t [] [.index]) ∧
    (∃ t, exec (.ldFont x) s = .next t ∧ t.index.toNat = (s.getV x).toNat * 5 ∧ t.pc = s.pc + 2 ∧
      Kept s t [] [.index])

/-- R4, R13: what the shared operations do under the other values of I_OVERFLOW, GLYPH_OOR and STACK_DEPTH. The variants
are the spec's parameters (log entries 8, 9 and 10). -/
def Obligations.VariantParametersActAsDescribed : Prop :=
  ∀ (s : State) (x : Reg),
    (s.index.toNat + (s.getV x).toNat > 0xFFFF → addToIndex .fault x s =
      .fault (.memoryOutOfBounds s.pc (s.index.toNat + (s.getV x).toNat))) ∧
    (s.index.toNat + (s.getV x).toNat ≤ 0xFFFF → addToIndex .fault x s = addToIndex .wrap x s) ∧
    (∃ t, indexToGlyph .mask x s = .next t ∧ t.index.toNat = (s.getV x &&& 0xF).toNat * 5) ∧
    ((s.getV x).toNat ≥ 16 →
      indexToGlyph .fault x s = .fault (.memoryOutOfBounds s.pc ((s.getV x).toNat * 5))) ∧
    ((s.getV x).toNat < 16 → indexToGlyph .fault x s = indexToGlyph .formula x s) ∧
    (s.sp = 15 → s.pushReturn 15 = .error (.stackOverflow s.pc)) ∧
    (∀ depth : Fin 17, s.sp < depth → ∃ t, s.pushReturn depth = .ok t)

/-- R183: LD B, VX stores the three decimal digits of V[X] at I, I+1 and I+2 and nothing else, or raises
`MemoryOutOfBounds` with no byte written. -/
def Obligations.BcdStoresTheDecimalDigits : Prop :=
  ∀ (s : State) (x : Reg), s.mem.wf = true →
    decode (BitVec.ofNat 16 (0xF033 + 0x100 * x.val)) = .ok (.ldBcd x) ∧
    (s.index.toNat + 2 > 4095 → exec (.ldBcd x) s = .fault (.memoryOutOfBounds s.pc (max s.index.toNat 4096))) ∧
    (s.index.toNat + 2 ≤ 4095 → ∃ t, exec (.ldBcd x) s = .next t ∧
      (t.byteAt (s.effAddr 0)).toNat = (s.getV x).toNat / 100 ∧
      (t.byteAt (s.effAddr 1)).toNat = (s.getV x).toNat / 10 % 10 ∧
      (t.byteAt (s.effAddr 2)).toNat = (s.getV x).toNat % 10 ∧
      (∀ a, a < s.effAddr 0 ∨ s.effAddr 0 + 3 ≤ a → t.byteAt a = s.byteAt a) ∧
      t.pc = s.pc + 2 ∧ Kept s t [] [.memory])

/-- R184: LD [I], VX stores V[0] to V[X] at I .. I+X and nothing else, or raises `MemoryOutOfBounds` with no byte
written. That I keeps its value is the spec's decision D12. -/
def Obligations.StoreRegistersWritesV0ToVX : Prop :=
  ∀ (s : State) (x : Reg), s.mem.wf = true →
    (s.index.toNat + x.val > 4095 →
      exec (.storeRegs x) s = .fault (.memoryOutOfBounds s.pc (max s.index.toNat 4096))) ∧
    (s.index.toNat + x.val ≤ 4095 → ∃ t, exec (.storeRegs x) s = .next t ∧
      (∀ r : Reg, r ≤ x → t.byteAt (s.effAddr r.val) = s.getV r) ∧
      (∀ a, a < s.effAddr 0 ∨ s.effAddr x.val < a → t.byteAt a = s.byteAt a) ∧
      t.pc = s.pc + 2 ∧ Kept s t [] [.memory])

/-- R185: LD VX, [I] loads V[0] to V[X] from I .. I+X, or raises `MemoryOutOfBounds` with no register written. That I keeps
its value is the spec's decision D12. -/
def Obligations.LoadRegistersReadsV0ToVX : Prop :=
  ∀ (s : State) (x : Reg),
    (s.index.toNat + x.val > 4095 →
      exec (.loadRegs x) s = .fault (.memoryOutOfBounds s.pc (max s.index.toNat 4096))) ∧
    (s.index.toNat + x.val ≤ 4095 → ∃ t, exec (.loadRegs x) s = .next t ∧
      (∀ r : Reg, r ≤ x → t.getV r = s.byteAt (s.effAddr r.val)) ∧
      t.pc = s.pc + 2 ∧ Kept s t (regsThrough x) [])

/-- What FX55 stored, FX65 with the same I brings back, whatever happened to the registers in between (R184, R185). -/
def Obligations.LoadAfterStoreRestoresRegisters : Prop :=
  ∀ (s t u : State) (x : Reg), s.mem.wf = true → exec (.storeRegs x) s = .next t → u.mem = t.mem →
    u.index = t.index → ∃ w, exec (.loadRegs x) u = .next w ∧ ∀ r : Reg, r ≤ x → w.getV r = s.getV r

/-- R66, R311, which the spec derives: two registers that FX55 stored are the word a later fetch at their address gives,
the lower register as the high byte. -/
def Obligations.StoredBytesAreFetched : Prop :=
  ∀ (s t u : State) (x r r' : Reg), s.mem.wf = true → exec (.storeRegs x) s = .next t → r' ≤ x → r'.val = r.val + 1 →
    u.mem = t.mem → u.pc.toNat = s.index.toNat + r.val → u.fetch = .ok (s.getV r ++ s.getV r')

/-! ## Display -/

/-- R210: CLS turns every pixel off and changes nothing else. -/
def Obligations.ClearTurnsEveryPixelOff : Prop :=
  ∀ s : State, decode 0x00E0 = .ok .cls ∧
    ∃ t, exec .cls s = .next t ∧ (∀ x y, x < 64 → y < 32 → t.display.pixel x y = false) ∧ t.pc = s.pc + 2 ∧
      Kept s t [] [.display]

/-- R211, R212, R213: with its sprite inside memory DRW turns over exactly the pixels its clipped sprite covers, and VF
says whether one of them was on; with a sprite byte outside it faults. The check of clipped rows and N = 0 are the spec's
decision D16; R212 and R213 are derived by the spec. -/
def Obligations.DrawXorsTheClippedSprite : Prop :=
  ∀ (s : State) (x y : Reg) (n : Height),
    (n.val ≥ 1 ∧ s.index.toNat + n.val - 1 > 4095 →
      exec (.drw x y n) s = .fault (.memoryOutOfBounds s.pc (max s.index.toNat 4096))) ∧
    (n.val = 0 ∨ s.index.toNat + n.val - 1 ≤ 4095 → ∃ t, exec (.drw x y n) s = .next t ∧
      (∀ px py, px < 64 → py < 32 → t.display.pixel px py =
        (s.display.pixel px py ^^ spriteCovers s (s.getV x).toNat (s.getV y).toNat n.val px py)) ∧
      (t.getV regVF = 1 ∨ t.getV regVF = 0) ∧
      (t.getV regVF = 1 ↔ ∃ px py, px < 64 ∧ py < 32 ∧ s.display.pixel px py = true ∧
        spriteCovers s (s.getV x).toNat (s.getV y).toNat n.val px py = true) ∧
      t.pc = s.pc + 2 ∧ Kept s t [regVF] [.display])

/-- R214, which the spec derives: the same sprite drawn twice at the same origin leaves the grid as it was. When the second
draw collides is the model's reading, not R214's words (log entry 18, DEDUCED): R214 says whenever at least one pixel was
drawn, the statement whenever at least one pixel was drawn that was off before the first draw, as R211 and R213 give. The
last clause is R214's for one sprite: drawn onto pixels that are off, it does not collide. -/
def Obligations.DrawingTwiceRestoresTheGrid : Prop :=
  ∀ (s t u w : State) (x y : Reg) (n : Height), exec (.drw x y n) s = .next t →
    u.mem = t.mem → u.index = t.index → u.display = t.display → u.getV x = s.getV x → u.getV y = s.getV y →
    exec (.drw x y n) u = .next w →
    w.display = s.display ∧
    ((∃ px py, px < 64 ∧ py < 32 ∧ spriteCovers s (s.getV x).toNat (s.getV y).toNat n.val px py = true ∧
      s.display.pixel px py = false) → w.getV regVF = 1) ∧
    ((∀ px py, px < 64 → py < 32 → spriteCovers s (s.getV x).toNat (s.getV y).toNat n.val px py = true →
      s.display.pixel px py = false) → t.getV regVF = 0)

/-- R214, which the spec derives: two sprites whose drawn pixels do not overlap, drawn one after the other onto a grid
that is off at those pixels, each set VF = 0; whatever runs between the draws may move the origin and the sprite, but not
the grid. -/
def Obligations.SeparateSpritesDoNotCollide : Prop :=
  ∀ (s t u w : State) (x y x' y' : Reg) (n n' : Height), exec (.drw x y n) s = .next t → u.display = t.display →
    exec (.drw x' y' n') u = .next w →
    (∀ px py, px < 64 → py < 32 →
      (spriteCovers s (s.getV x).toNat (s.getV y).toNat n.val px py = true →
        s.display.pixel px py = false ∧ spriteCovers u (u.getV x').toNat (u.getV y').toNat n'.val px py = false) ∧
      (spriteCovers u (u.getV x').toNat (u.getV y').toNat n'.val px py = true → s.display.pixel px py = false)) →
    t.getV regVF = 0 ∧ w.getV regVF = 0

/-! ## Keys and timers -/

/-- R230, R231: SKP skips exactly when the key is down, SKNP exactly when it is not. A code of 16 or more is never down:
the spec's decision D13. -/
def Obligations.KeySkipsFollowTheSnapshot : Prop :=
  ∀ (s : State) (x : Reg),
    (∃ t, exec (.skp x) s = .next t ∧
      (∀ k : Fin 16, k.val = (s.getV x).toNat → t.pc = if s.keys[k] then s.pc + 4 else s.pc + 2) ∧
      ((s.getV x).toNat ≥ 16 → t.pc = s.pc + 2) ∧ Kept s t [] []) ∧
    (∃ t, exec (.sknp x) s = .next t ∧
      (∀ k : Fin 16, k.val = (s.getV x).toNat → t.pc = if s.keys[k] then s.pc + 2 else s.pc + 4) ∧
      ((s.getV x).toNat ≥ 16 → t.pc = s.pc + 4) ∧ Kept s t [] [])

/-- R232: with no key held nothing changes, pc included; otherwise VX takes the lowest code held. -/
def Obligations.WaitForKeyTakesTheLowest : Prop :=
  ∀ (s : State) (x : Reg),
    decode (BitVec.ofNat 16 (0xF00A + 0x100 * x.val)) = .ok (.waitKey x) ∧
    ((∀ k : Fin 16, s.keys[k] = false) → exec (.waitKey x) s = .next s) ∧
    (∀ k : Fin 16, s.keys[k] = true → (∀ j : Fin 16, j < k → s.keys[j] = false) →
      ∃ t, exec (.waitKey x) s = .next t ∧ (t.getV x).toNat = k.val ∧ t.pc = s.pc + 2 ∧ Kept s t [x] [])

/-- R233, R234, R235: FX07 reads DT into VX, FX15 writes DT and FX18 writes ST from VX, and each changes nothing else. -/
def Obligations.TimerInstructionsMoveTheTimers : Prop :=
  ∀ (s : State) (x : Reg),
    decode (BitVec.ofNat 16 (0xF007 + 0x100 * x.val)) = .ok (.ldFromDt x) ∧
    decode (BitVec.ofNat 16 (0xF015 + 0x100 * x.val)) = .ok (.ldDt x) ∧
    decode (BitVec.ofNat 16 (0xF018 + 0x100 * x.val)) = .ok (.ldSt x) ∧
    (∃ t, exec (.ldFromDt x) s = .next t ∧ t.getV x = s.dt ∧ t.pc = s.pc + 2 ∧ Kept s t [x] []) ∧
    (∃ t, exec (.ldDt x) s = .next t ∧ t.dt = s.getV x ∧ t.pc = s.pc + 2 ∧ Kept s t [] [.dt]) ∧
    (∃ t, exec (.ldSt x) s = .next t ∧ t.st = s.getV x ∧ t.pc = s.pc + 2 ∧ Kept s t [] [.st])
end

