-- ==== Sys2Proof/Laws/State.lean ====
section
/-! SUPPORT. One lemma per field of State per update, so that no later proof unfolds a record update. -/

namespace Sys2Proof.Machine

variable (s : State)

/-! setV -/

@[simp] theorem State.setV_v (r : Reg) (b : Byte) : (s.setV r b).v = s.v.set r b := rfl
@[simp] theorem State.setV_pc (r : Reg) (b : Byte) : (s.setV r b).pc = s.pc := rfl
@[simp] theorem State.setV_index (r : Reg) (b : Byte) : (s.setV r b).index = s.index := rfl
@[simp] theorem State.setV_sp (r : Reg) (b : Byte) : (s.setV r b).sp = s.sp := rfl
@[simp] theorem State.setV_stack (r : Reg) (b : Byte) : (s.setV r b).stack = s.stack := rfl
@[simp] theorem State.setV_dt (r : Reg) (b : Byte) : (s.setV r b).dt = s.dt := rfl
@[simp] theorem State.setV_st (r : Reg) (b : Byte) : (s.setV r b).st = s.st := rfl
@[simp] theorem State.setV_display (r : Reg) (b : Byte) : (s.setV r b).display = s.display := rfl
@[simp] theorem State.setV_mem (r : Reg) (b : Byte) : (s.setV r b).mem = s.mem := rfl
@[simp] theorem State.setV_keys (r : Reg) (b : Byte) : (s.setV r b).keys = s.keys := rfl
@[simp] theorem State.setV_turns (r : Reg) (b : Byte) : (s.setV r b).turns = s.turns := rfl
@[simp] theorem State.setV_turnCount (r : Reg) (b : Byte) : (s.setV r b).turnCount = s.turnCount := rfl
@[simp] theorem State.setV_randomIn (r : Reg) (b : Byte) : (s.setV r b).randomIn = s.randomIn := rfl
@[simp] theorem State.setV_drawCount (r : Reg) (b : Byte) : (s.setV r b).drawCount = s.drawCount := rfl

/-! setIndex -/

@[simp] theorem State.setIndex_v (w : Word) : (s.setIndex w).v = s.v := rfl
@[simp] theorem State.setIndex_pc (w : Word) : (s.setIndex w).pc = s.pc := rfl
@[simp] theorem State.setIndex_index (w : Word) : (s.setIndex w).index = w := rfl
@[simp] theorem State.setIndex_sp (w : Word) : (s.setIndex w).sp = s.sp := rfl
@[simp] theorem State.setIndex_stack (w : Word) : (s.setIndex w).stack = s.stack := rfl
@[simp] theorem State.setIndex_dt (w : Word) : (s.setIndex w).dt = s.dt := rfl
@[simp] theorem State.setIndex_st (w : Word) : (s.setIndex w).st = s.st := rfl
@[simp] theorem State.setIndex_display (w : Word) : (s.setIndex w).display = s.display := rfl
@[simp] theorem State.setIndex_mem (w : Word) : (s.setIndex w).mem = s.mem := rfl
@[simp] theorem State.setIndex_keys (w : Word) : (s.setIndex w).keys = s.keys := rfl
@[simp] theorem State.setIndex_turns (w : Word) : (s.setIndex w).turns = s.turns := rfl
@[simp] theorem State.setIndex_turnCount (w : Word) : (s.setIndex w).turnCount = s.turnCount := rfl
@[simp] theorem State.setIndex_randomIn (w : Word) : (s.setIndex w).randomIn = s.randomIn := rfl
@[simp] theorem State.setIndex_drawCount (w : Word) : (s.setIndex w).drawCount = s.drawCount := rfl

/-! setPc -/

@[simp] theorem State.setPc_v (w : Word) : (s.setPc w).v = s.v := rfl
@[simp] theorem State.setPc_pc (w : Word) : (s.setPc w).pc = w := rfl
@[simp] theorem State.setPc_index (w : Word) : (s.setPc w).index = s.index := rfl
@[simp] theorem State.setPc_sp (w : Word) : (s.setPc w).sp = s.sp := rfl
@[simp] theorem State.setPc_stack (w : Word) : (s.setPc w).stack = s.stack := rfl
@[simp] theorem State.setPc_dt (w : Word) : (s.setPc w).dt = s.dt := rfl
@[simp] theorem State.setPc_st (w : Word) : (s.setPc w).st = s.st := rfl
@[simp] theorem State.setPc_display (w : Word) : (s.setPc w).display = s.display := rfl
@[simp] theorem State.setPc_mem (w : Word) : (s.setPc w).mem = s.mem := rfl
@[simp] theorem State.setPc_keys (w : Word) : (s.setPc w).keys = s.keys := rfl
@[simp] theorem State.setPc_turns (w : Word) : (s.setPc w).turns = s.turns := rfl
@[simp] theorem State.setPc_turnCount (w : Word) : (s.setPc w).turnCount = s.turnCount := rfl
@[simp] theorem State.setPc_randomIn (w : Word) : (s.setPc w).randomIn = s.randomIn := rfl
@[simp] theorem State.setPc_drawCount (w : Word) : (s.setPc w).drawCount = s.drawCount := rfl

/-! advance -/

@[simp] theorem State.advance_v : s.advance.v = s.v := rfl
@[simp] theorem State.advance_pc : s.advance.pc = s.pc + 2 := rfl
@[simp] theorem State.advance_index : s.advance.index = s.index := rfl
@[simp] theorem State.advance_sp : s.advance.sp = s.sp := rfl
@[simp] theorem State.advance_stack : s.advance.stack = s.stack := rfl
@[simp] theorem State.advance_dt : s.advance.dt = s.dt := rfl
@[simp] theorem State.advance_st : s.advance.st = s.st := rfl
@[simp] theorem State.advance_display : s.advance.display = s.display := rfl
@[simp] theorem State.advance_mem : s.advance.mem = s.mem := rfl
@[simp] theorem State.advance_keys : s.advance.keys = s.keys := rfl
@[simp] theorem State.advance_turns : s.advance.turns = s.turns := rfl
@[simp] theorem State.advance_turnCount : s.advance.turnCount = s.turnCount := rfl
@[simp] theorem State.advance_randomIn : s.advance.randomIn = s.randomIn := rfl
@[simp] theorem State.advance_drawCount : s.advance.drawCount = s.drawCount := rfl

/-! skipIf -/

@[simp] theorem State.skipIf_v (c : Bool) : (s.skipIf c).v = s.v := rfl
@[simp] theorem State.skipIf_pc (c : Bool) : (s.skipIf c).pc = if c then s.pc + 4 else s.pc + 2 := rfl
@[simp] theorem State.skipIf_index (c : Bool) : (s.skipIf c).index = s.index := rfl
@[simp] theorem State.skipIf_sp (c : Bool) : (s.skipIf c).sp = s.sp := rfl
@[simp] theorem State.skipIf_stack (c : Bool) : (s.skipIf c).stack = s.stack := rfl
@[simp] theorem State.skipIf_dt (c : Bool) : (s.skipIf c).dt = s.dt := rfl
@[simp] theorem State.skipIf_st (c : Bool) : (s.skipIf c).st = s.st := rfl
@[simp] theorem State.skipIf_display (c : Bool) : (s.skipIf c).display = s.display := rfl
@[simp] theorem State.skipIf_mem (c : Bool) : (s.skipIf c).mem = s.mem := rfl
@[simp] theorem State.skipIf_keys (c : Bool) : (s.skipIf c).keys = s.keys := rfl
@[simp] theorem State.skipIf_turns (c : Bool) : (s.skipIf c).turns = s.turns := rfl
@[simp] theorem State.skipIf_turnCount (c : Bool) : (s.skipIf c).turnCount = s.turnCount := rfl
@[simp] theorem State.skipIf_randomIn (c : Bool) : (s.skipIf c).randomIn = s.randomIn := rfl
@[simp] theorem State.skipIf_drawCount (c : Bool) : (s.skipIf c).drawCount = s.drawCount := rfl

/-! storeBytes -/

@[simp] theorem State.storeBytes_v (a : Nat) (bs : List Byte) : (s.storeBytes a bs).v = s.v := rfl
@[simp] theorem State.storeBytes_pc (a : Nat) (bs : List Byte) : (s.storeBytes a bs).pc = s.pc := rfl
@[simp] theorem State.storeBytes_index (a : Nat) (bs : List Byte) : (s.storeBytes a bs).index = s.index := rfl
@[simp] theorem State.storeBytes_sp (a : Nat) (bs : List Byte) : (s.storeBytes a bs).sp = s.sp := rfl
@[simp] theorem State.storeBytes_stack (a : Nat) (bs : List Byte) : (s.storeBytes a bs).stack = s.stack := rfl
@[simp] theorem State.storeBytes_dt (a : Nat) (bs : List Byte) : (s.storeBytes a bs).dt = s.dt := rfl
@[simp] theorem State.storeBytes_st (a : Nat) (bs : List Byte) : (s.storeBytes a bs).st = s.st := rfl
@[simp] theorem State.storeBytes_display (a : Nat) (bs : List Byte) : (s.storeBytes a bs).display = s.display := rfl
@[simp] theorem State.storeBytes_mem (a : Nat) (bs : List Byte) : (s.storeBytes a bs).mem = s.mem.writeBytes a bs := rfl
@[simp] theorem State.storeBytes_keys (a : Nat) (bs : List Byte) : (s.storeBytes a bs).keys = s.keys := rfl
@[simp] theorem State.storeBytes_turns (a : Nat) (bs : List Byte) : (s.storeBytes a bs).turns = s.turns := rfl
@[simp] theorem State.storeBytes_turnCount (a : Nat) (bs : List Byte) : (s.storeBytes a bs).turnCount = s.turnCount := rfl
@[simp] theorem State.storeBytes_randomIn (a : Nat) (bs : List Byte) : (s.storeBytes a bs).randomIn = s.randomIn := rfl
@[simp] theorem State.storeBytes_drawCount (a : Nat) (bs : List Byte) : (s.storeBytes a bs).drawCount = s.drawCount := rfl

/-! loadBytes -/

@[simp] theorem State.loadBytes_v (x : Reg) (a : Nat) : (s.loadBytes x a).v = Vector.ofFn fun r : Reg => if r ≤ x then s.byteAt (a + r.val) else s.getV r := rfl
@[simp] theorem State.loadBytes_pc (x : Reg) (a : Nat) : (s.loadBytes x a).pc = s.pc := rfl
@[simp] theorem State.loadBytes_index (x : Reg) (a : Nat) : (s.loadBytes x a).index = s.index := rfl
@[simp] theorem State.loadBytes_sp (x : Reg) (a : Nat) : (s.loadBytes x a).sp = s.sp := rfl
@[simp] theorem State.loadBytes_stack (x : Reg) (a : Nat) : (s.loadBytes x a).stack = s.stack := rfl
@[simp] theorem State.loadBytes_dt (x : Reg) (a : Nat) : (s.loadBytes x a).dt = s.dt := rfl
@[simp] theorem State.loadBytes_st (x : Reg) (a : Nat) : (s.loadBytes x a).st = s.st := rfl
@[simp] theorem State.loadBytes_display (x : Reg) (a : Nat) : (s.loadBytes x a).display = s.display := rfl
@[simp] theorem State.loadBytes_mem (x : Reg) (a : Nat) : (s.loadBytes x a).mem = s.mem := rfl
@[simp] theorem State.loadBytes_keys (x : Reg) (a : Nat) : (s.loadBytes x a).keys = s.keys := rfl
@[simp] theorem State.loadBytes_turns (x : Reg) (a : Nat) : (s.loadBytes x a).turns = s.turns := rfl
@[simp] theorem State.loadBytes_turnCount (x : Reg) (a : Nat) : (s.loadBytes x a).turnCount = s.turnCount := rfl
@[simp] theorem State.loadBytes_randomIn (x : Reg) (a : Nat) : (s.loadBytes x a).randomIn = s.randomIn := rfl
@[simp] theorem State.loadBytes_drawCount (x : Reg) (a : Nat) : (s.loadBytes x a).drawCount = s.drawCount := rfl

/-! setDisplay -/

@[simp] theorem State.setDisplay_v (d : Display) : (s.setDisplay d).v = s.v := rfl
@[simp] theorem State.setDisplay_pc (d : Display) : (s.setDisplay d).pc = s.pc := rfl
@[simp] theorem State.setDisplay_index (d : Display) : (s.setDisplay d).index = s.index := rfl
@[simp] theorem State.setDisplay_sp (d : Display) : (s.setDisplay d).sp = s.sp := rfl
@[simp] theorem State.setDisplay_stack (d : Display) : (s.setDisplay d).stack = s.stack := rfl
@[simp] theorem State.setDisplay_dt (d : Display) : (s.setDisplay d).dt = s.dt := rfl
@[simp] theorem State.setDisplay_st (d : Display) : (s.setDisplay d).st = s.st := rfl
@[simp] theorem State.setDisplay_display (d : Display) : (s.setDisplay d).display = d := rfl
@[simp] theorem State.setDisplay_mem (d : Display) : (s.setDisplay d).mem = s.mem := rfl
@[simp] theorem State.setDisplay_keys (d : Display) : (s.setDisplay d).keys = s.keys := rfl
@[simp] theorem State.setDisplay_turns (d : Display) : (s.setDisplay d).turns = s.turns := rfl
@[simp] theorem State.setDisplay_turnCount (d : Display) : (s.setDisplay d).turnCount = s.turnCount := rfl
@[simp] theorem State.setDisplay_randomIn (d : Display) : (s.setDisplay d).randomIn = s.randomIn := rfl
@[simp] theorem State.setDisplay_drawCount (d : Display) : (s.setDisplay d).drawCount = s.drawCount := rfl

/-! setDt -/

@[simp] theorem State.setDt_v (b : Byte) : (s.setDt b).v = s.v := rfl
@[simp] theorem State.setDt_pc (b : Byte) : (s.setDt b).pc = s.pc := rfl
@[simp] theorem State.setDt_index (b : Byte) : (s.setDt b).index = s.index := rfl
@[simp] theorem State.setDt_sp (b : Byte) : (s.setDt b).sp = s.sp := rfl
@[simp] theorem State.setDt_stack (b : Byte) : (s.setDt b).stack = s.stack := rfl
@[simp] theorem State.setDt_dt (b : Byte) : (s.setDt b).dt = b := rfl
@[simp] theorem State.setDt_st (b : Byte) : (s.setDt b).st = s.st := rfl
@[simp] theorem State.setDt_display (b : Byte) : (s.setDt b).display = s.display := rfl
@[simp] theorem State.setDt_mem (b : Byte) : (s.setDt b).mem = s.mem := rfl
@[simp] theorem State.setDt_keys (b : Byte) : (s.setDt b).keys = s.keys := rfl
@[simp] theorem State.setDt_turns (b : Byte) : (s.setDt b).turns = s.turns := rfl
@[simp] theorem State.setDt_turnCount (b : Byte) : (s.setDt b).turnCount = s.turnCount := rfl
@[simp] theorem State.setDt_randomIn (b : Byte) : (s.setDt b).randomIn = s.randomIn := rfl
@[simp] theorem State.setDt_drawCount (b : Byte) : (s.setDt b).drawCount = s.drawCount := rfl

/-! setSt -/

@[simp] theorem State.setSt_v (b : Byte) : (s.setSt b).v = s.v := rfl
@[simp] theorem State.setSt_pc (b : Byte) : (s.setSt b).pc = s.pc := rfl
@[simp] theorem State.setSt_index (b : Byte) : (s.setSt b).index = s.index := rfl
@[simp] theorem State.setSt_sp (b : Byte) : (s.setSt b).sp = s.sp := rfl
@[simp] theorem State.setSt_stack (b : Byte) : (s.setSt b).stack = s.stack := rfl
@[simp] theorem State.setSt_dt (b : Byte) : (s.setSt b).dt = s.dt := rfl
@[simp] theorem State.setSt_st (b : Byte) : (s.setSt b).st = b := rfl
@[simp] theorem State.setSt_display (b : Byte) : (s.setSt b).display = s.display := rfl
@[simp] theorem State.setSt_mem (b : Byte) : (s.setSt b).mem = s.mem := rfl
@[simp] theorem State.setSt_keys (b : Byte) : (s.setSt b).keys = s.keys := rfl
@[simp] theorem State.setSt_turns (b : Byte) : (s.setSt b).turns = s.turns := rfl
@[simp] theorem State.setSt_turnCount (b : Byte) : (s.setSt b).turnCount = s.turnCount := rfl
@[simp] theorem State.setSt_randomIn (b : Byte) : (s.setSt b).randomIn = s.randomIn := rfl
@[simp] theorem State.setSt_drawCount (b : Byte) : (s.setSt b).drawCount = s.drawCount := rfl

/-! tickDelay -/

@[simp] theorem State.tickDelay_v : s.tickDelay.v = s.v := rfl
@[simp] theorem State.tickDelay_pc : s.tickDelay.pc = s.pc := rfl
@[simp] theorem State.tickDelay_index : s.tickDelay.index = s.index := rfl
@[simp] theorem State.tickDelay_sp : s.tickDelay.sp = s.sp := rfl
@[simp] theorem State.tickDelay_stack : s.tickDelay.stack = s.stack := rfl
@[simp] theorem State.tickDelay_dt : s.tickDelay.dt = tickByte s.dt := rfl
@[simp] theorem State.tickDelay_st : s.tickDelay.st = s.st := rfl
@[simp] theorem State.tickDelay_display : s.tickDelay.display = s.display := rfl
@[simp] theorem State.tickDelay_mem : s.tickDelay.mem = s.mem := rfl
@[simp] theorem State.tickDelay_keys : s.tickDelay.keys = s.keys := rfl
@[simp] theorem State.tickDelay_turns : s.tickDelay.turns = s.turns := rfl
@[simp] theorem State.tickDelay_turnCount : s.tickDelay.turnCount = s.turnCount := rfl
@[simp] theorem State.tickDelay_randomIn : s.tickDelay.randomIn = s.randomIn := rfl
@[simp] theorem State.tickDelay_drawCount : s.tickDelay.drawCount = s.drawCount := rfl

/-! tickSound -/

@[simp] theorem State.tickSound_v : s.tickSound.v = s.v := rfl
@[simp] theorem State.tickSound_pc : s.tickSound.pc = s.pc := rfl
@[simp] theorem State.tickSound_index : s.tickSound.index = s.index := rfl
@[simp] theorem State.tickSound_sp : s.tickSound.sp = s.sp := rfl
@[simp] theorem State.tickSound_stack : s.tickSound.stack = s.stack := rfl
@[simp] theorem State.tickSound_dt : s.tickSound.dt = s.dt := rfl
@[simp] theorem State.tickSound_st : s.tickSound.st = tickByte s.st := rfl
@[simp] theorem State.tickSound_display : s.tickSound.display = s.display := rfl
@[simp] theorem State.tickSound_mem : s.tickSound.mem = s.mem := rfl
@[simp] theorem State.tickSound_keys : s.tickSound.keys = s.keys := rfl
@[simp] theorem State.tickSound_turns : s.tickSound.turns = s.turns := rfl
@[simp] theorem State.tickSound_turnCount : s.tickSound.turnCount = s.turnCount := rfl
@[simp] theorem State.tickSound_randomIn : s.tickSound.randomIn = s.randomIn := rfl
@[simp] theorem State.tickSound_drawCount : s.tickSound.drawCount = s.drawCount := rfl

/-! tickTimers -/

@[simp] theorem State.tickTimers_v : s.tickTimers.v = s.v := rfl
@[simp] theorem State.tickTimers_pc : s.tickTimers.pc = s.pc := rfl
@[simp] theorem State.tickTimers_index : s.tickTimers.index = s.index := rfl
@[simp] theorem State.tickTimers_sp : s.tickTimers.sp = s.sp := rfl
@[simp] theorem State.tickTimers_stack : s.tickTimers.stack = s.stack := rfl
@[simp] theorem State.tickTimers_dt : s.tickTimers.dt = tickByte s.dt := rfl
@[simp] theorem State.tickTimers_st : s.tickTimers.st = tickByte s.st := rfl
@[simp] theorem State.tickTimers_display : s.tickTimers.display = s.display := rfl
@[simp] theorem State.tickTimers_mem : s.tickTimers.mem = s.mem := rfl
@[simp] theorem State.tickTimers_keys : s.tickTimers.keys = s.keys := rfl
@[simp] theorem State.tickTimers_turns : s.tickTimers.turns = s.turns := rfl
@[simp] theorem State.tickTimers_turnCount : s.tickTimers.turnCount = s.turnCount := rfl
@[simp] theorem State.tickTimers_randomIn : s.tickTimers.randomIn = s.randomIn := rfl
@[simp] theorem State.tickTimers_drawCount : s.tickTimers.drawCount = s.drawCount := rfl

/-! consumeDraw -/

@[simp] theorem State.consumeDraw_v : s.consumeDraw.v = s.v := rfl
@[simp] theorem State.consumeDraw_pc : s.consumeDraw.pc = s.pc := rfl
@[simp] theorem State.consumeDraw_index : s.consumeDraw.index = s.index := rfl
@[simp] theorem State.consumeDraw_sp : s.consumeDraw.sp = s.sp := rfl
@[simp] theorem State.consumeDraw_stack : s.consumeDraw.stack = s.stack := rfl
@[simp] theorem State.consumeDraw_dt : s.consumeDraw.dt = s.dt := rfl
@[simp] theorem State.consumeDraw_st : s.consumeDraw.st = s.st := rfl
@[simp] theorem State.consumeDraw_display : s.consumeDraw.display = s.display := rfl
@[simp] theorem State.consumeDraw_mem : s.consumeDraw.mem = s.mem := rfl
@[simp] theorem State.consumeDraw_keys : s.consumeDraw.keys = s.keys := rfl
@[simp] theorem State.consumeDraw_turns : s.consumeDraw.turns = s.turns := rfl
@[simp] theorem State.consumeDraw_turnCount : s.consumeDraw.turnCount = s.turnCount := rfl
@[simp] theorem State.consumeDraw_randomIn : s.consumeDraw.randomIn = s.randomIn.tail := rfl
@[simp] theorem State.consumeDraw_drawCount : s.consumeDraw.drawCount = s.drawCount + 1 := rfl

/-! latchKeys -/

@[simp] theorem State.latchKeys_v (k : Keys) : (s.latchKeys k).v = s.v := rfl
@[simp] theorem State.latchKeys_pc (k : Keys) : (s.latchKeys k).pc = s.pc := rfl
@[simp] theorem State.latchKeys_index (k : Keys) : (s.latchKeys k).index = s.index := rfl
@[simp] theorem State.latchKeys_sp (k : Keys) : (s.latchKeys k).sp = s.sp := rfl
@[simp] theorem State.latchKeys_stack (k : Keys) : (s.latchKeys k).stack = s.stack := rfl
@[simp] theorem State.latchKeys_dt (k : Keys) : (s.latchKeys k).dt = s.dt := rfl
@[simp] theorem State.latchKeys_st (k : Keys) : (s.latchKeys k).st = s.st := rfl
@[simp] theorem State.latchKeys_display (k : Keys) : (s.latchKeys k).display = s.display := rfl
@[simp] theorem State.latchKeys_mem (k : Keys) : (s.latchKeys k).mem = s.mem := rfl
@[simp] theorem State.latchKeys_keys (k : Keys) : (s.latchKeys k).keys = k := rfl
@[simp] theorem State.latchKeys_turns (k : Keys) : (s.latchKeys k).turns = s.turns := rfl
@[simp] theorem State.latchKeys_turnCount (k : Keys) : (s.latchKeys k).turnCount = s.turnCount := rfl
@[simp] theorem State.latchKeys_randomIn (k : Keys) : (s.latchKeys k).randomIn = s.randomIn := rfl
@[simp] theorem State.latchKeys_drawCount (k : Keys) : (s.latchKeys k).drawCount = s.drawCount := rfl

/-! takeTurn -/

@[simp] theorem State.takeTurn_v : s.takeTurn.v = s.v := rfl
@[simp] theorem State.takeTurn_pc : s.takeTurn.pc = s.pc := rfl
@[simp] theorem State.takeTurn_index : s.takeTurn.index = s.index := rfl
@[simp] theorem State.takeTurn_sp : s.takeTurn.sp = s.sp := rfl
@[simp] theorem State.takeTurn_stack : s.takeTurn.stack = s.stack := rfl
@[simp] theorem State.takeTurn_dt : s.takeTurn.dt = tickTimes s.nextTurn.ticks s.dt := rfl
@[simp] theorem State.takeTurn_st : s.takeTurn.st = tickTimes s.nextTurn.ticks s.st := rfl
@[simp] theorem State.takeTurn_display : s.takeTurn.display = s.display := rfl
@[simp] theorem State.takeTurn_mem : s.takeTurn.mem = s.mem := rfl
@[simp] theorem State.takeTurn_keys : s.takeTurn.keys = s.nextTurn.keys := rfl
@[simp] theorem State.takeTurn_turns : s.takeTurn.turns = s.turns.tail := rfl
@[simp] theorem State.takeTurn_turnCount : s.takeTurn.turnCount = s.turnCount + 1 := rfl
@[simp] theorem State.takeTurn_randomIn : s.takeTurn.randomIn = s.randomIn := rfl
@[simp] theorem State.takeTurn_drawCount : s.takeTurn.drawCount = s.drawCount := rfl

/-! writeFlagged: whichever order, only the registers change. -/

@[simp] theorem State.writeFlagged_pc (o : Config.VfOrder) (x : Reg) (f r : Byte) :
    (s.writeFlagged o x f r).pc = s.pc := by cases o <;> rfl
@[simp] theorem State.writeFlagged_index (o : Config.VfOrder) (x : Reg) (f r : Byte) :
    (s.writeFlagged o x f r).index = s.index := by cases o <;> rfl
@[simp] theorem State.writeFlagged_sp (o : Config.VfOrder) (x : Reg) (f r : Byte) :
    (s.writeFlagged o x f r).sp = s.sp := by cases o <;> rfl
@[simp] theorem State.writeFlagged_stack (o : Config.VfOrder) (x : Reg) (f r : Byte) :
    (s.writeFlagged o x f r).stack = s.stack := by cases o <;> rfl
@[simp] theorem State.writeFlagged_dt (o : Config.VfOrder) (x : Reg) (f r : Byte) :
    (s.writeFlagged o x f r).dt = s.dt := by cases o <;> rfl
@[simp] theorem State.writeFlagged_st (o : Config.VfOrder) (x : Reg) (f r : Byte) :
    (s.writeFlagged o x f r).st = s.st := by cases o <;> rfl
@[simp] theorem State.writeFlagged_display (o : Config.VfOrder) (x : Reg) (f r : Byte) :
    (s.writeFlagged o x f r).display = s.display := by cases o <;> rfl
@[simp] theorem State.writeFlagged_mem (o : Config.VfOrder) (x : Reg) (f r : Byte) :
    (s.writeFlagged o x f r).mem = s.mem := by cases o <;> rfl
@[simp] theorem State.writeFlagged_keys (o : Config.VfOrder) (x : Reg) (f r : Byte) :
    (s.writeFlagged o x f r).keys = s.keys := by cases o <;> rfl
@[simp] theorem State.writeFlagged_turns (o : Config.VfOrder) (x : Reg) (f r : Byte) :
    (s.writeFlagged o x f r).turns = s.turns := by cases o <;> rfl
@[simp] theorem State.writeFlagged_turnCount (o : Config.VfOrder) (x : Reg) (f r : Byte) :
    (s.writeFlagged o x f r).turnCount = s.turnCount := by cases o <;> rfl
@[simp] theorem State.writeFlagged_randomIn (o : Config.VfOrder) (x : Reg) (f r : Byte) :
    (s.writeFlagged o x f r).randomIn = s.randomIn := by cases o <;> rfl
@[simp] theorem State.writeFlagged_drawCount (o : Config.VfOrder) (x : Reg) (f r : Byte) :
    (s.writeFlagged o x f r).drawCount = s.drawCount := by cases o <;> rfl

end Sys2Proof.Machine
end

