-- ==== Sys2Proof/Laws/Memory.lean ====
section
/-! SUPPORT. The laws of memory: read after write, the canonical form and its uniqueness, the bounds check
(spec 20_memory.md R52, R59). -/

namespace Sys2Proof.Machine

/-- An address below the first one allowed is not listed. -/
theorem Memory.read_below {m : Memory} {lo a : Nat} (h : Memory.wfFrom lo m = true) (ha : a < lo) :
    m.read a = Memory.resetByte a := by
  induction m generalizing lo with
  | nil => rfl
  | cons e m ih =>
    obtain ⟨k, b⟩ := e
    simp only [Memory.wfFrom, Bool.and_eq_true, decide_eq_true_eq] at h
    obtain ⟨⟨⟨hk, -⟩, -⟩, hm⟩ := h
    have hne : k ≠ a := by omega
    simp only [Memory.read, hne, if_false]
    exact ih hm (by omega)

theorem Memory.wfFrom_mono {m : Memory} {lo lo' : Nat} (h : Memory.wfFrom lo m = true) (hl : lo' ≤ lo) :
    Memory.wfFrom lo' m = true := by
  cases m with
  | nil => rfl
  | cons e m =>
    obtain ⟨k, b⟩ := e
    simp only [Memory.wfFrom, Bool.and_eq_true, decide_eq_true_eq] at h ⊢
    exact ⟨⟨⟨by omega, h.1.1.2⟩, h.1.2⟩, h.2⟩

/-- Reading a byte returns what was last written there, and a write changes only its byte (R59). -/
theorem Memory.read_write_from {m : Memory} {lo : Nat} (h : Memory.wfFrom lo m = true) (a : Nat) (b : Byte)
    (a' : Nat) : (m.write a b).read a' = if a = a' then b else m.read a' := by
  induction m generalizing lo with
  | nil =>
    by_cases hb : b = Memory.resetByte a
    · by_cases ha : a = a'
      · subst ha; simp [Memory.write, Memory.read, hb]
      · simp [Memory.write, Memory.read, hb, ha]
    · simp [Memory.write, Memory.read, hb]
  | cons e m ih =>
    obtain ⟨k, c⟩ := e
    have hw := h
    simp only [Memory.wfFrom, Bool.and_eq_true, decide_eq_true_eq] at h
    obtain ⟨⟨⟨hk, -⟩, -⟩, hm⟩ := h
    rcases Nat.lt_trichotomy a k with hlt | heq | hgt
    · by_cases hb : b = Memory.resetByte a
      · have hr : Memory.read ((k, c) :: m) a = Memory.resetByte a := by
          have : k ≠ a := by omega
          simp only [Memory.read, this, if_false]
          exact Memory.read_below hm (by omega)
        simp only [Memory.write, hlt, if_true, if_pos hb]
        split
        · next he => subst he; rw [hr, hb]
        · rfl
      · simp only [Memory.write, hlt, if_true, if_neg hb, Memory.read]
    · subst heq
      have hr : Memory.read m a = Memory.resetByte a := Memory.read_below hm (Nat.lt_succ_self a)
      by_cases hb : b = Memory.resetByte a
      · simp only [Memory.write, Nat.lt_irrefl, if_false, if_true, if_pos hb, Memory.read]
        split
        · next he => subst he; rw [hr, hb]
        · rfl
      · simp only [Memory.write, Nat.lt_irrefl, if_false, if_true, if_neg hb, Memory.read]
        split <;> rfl
    · have h1 : ¬ a < k := by omega
      have h2 : a ≠ k := by omega
      simp only [Memory.write, h1, h2, if_false, Memory.read, ih hm]
      by_cases hka : k = a'
      · have : a ≠ a' := by omega
        simp [hka, this]
      · simp [hka]

theorem Memory.read_write {m : Memory} (h : m.wf = true) (a : Nat) (b : Byte) (a' : Nat) :
    (m.write a b).read a' = if a = a' then b else m.read a' :=
  Memory.read_write_from h a b a'

theorem Memory.wfFrom_write {m : Memory} {lo : Nat} (h : Memory.wfFrom lo m = true) {a : Nat} (hlo : lo ≤ a)
    (ha : a < 4096) (b : Byte) : Memory.wfFrom lo (m.write a b) = true := by
  induction m generalizing lo with
  | nil =>
    by_cases hb : b = Memory.resetByte a
    · simp [Memory.write, hb, Memory.wfFrom]
    · simp [Memory.write, hb, Memory.wfFrom, hlo, ha]
  | cons e m ih =>
    obtain ⟨k, c⟩ := e
    have hw := h
    simp only [Memory.wfFrom, Bool.and_eq_true, decide_eq_true_eq] at h
    obtain ⟨⟨⟨hk, hk4⟩, hc⟩, hm⟩ := h
    rcases Nat.lt_trichotomy a k with hlt | heq | hgt
    · by_cases hb : b = Memory.resetByte a
      · simpa only [Memory.write, hlt, if_true, if_pos hb] using hw
      · simp only [Memory.write, hlt, if_true, if_neg hb, Memory.wfFrom, Bool.and_eq_true, decide_eq_true_eq]
        exact ⟨⟨⟨hlo, ha⟩, hb⟩, ⟨⟨by omega, hk4⟩, hc⟩, hm⟩
    · subst heq
      by_cases hb : b = Memory.resetByte a
      · simp only [Memory.write, Nat.lt_irrefl, if_false, if_true, if_pos hb]
        exact Memory.wfFrom_mono hm (by omega)
      · simp only [Memory.write, Nat.lt_irrefl, if_false, if_true, if_neg hb, Memory.wfFrom, Bool.and_eq_true,
          decide_eq_true_eq]
        exact ⟨⟨⟨hlo, ha⟩, hb⟩, hm⟩
    · have h1 : ¬ a < k := by omega
      have h2 : a ≠ k := by omega
      simp only [Memory.write, h1, h2, if_false, Memory.wfFrom, Bool.and_eq_true, decide_eq_true_eq]
      exact ⟨⟨⟨hk, hk4⟩, hc⟩, ih hm (by omega)⟩

/-- A write inside the 4096 bytes keeps the canonical form. -/
theorem Memory.wf_write {m : Memory} (h : m.wf = true) {a : Nat} (ha : a < 4096) (b : Byte) :
    (m.write a b).wf = true :=
  Memory.wfFrom_write h (Nat.zero_le a) ha b

/-- Memory after reset is in its canonical form. -/
theorem Memory.wf_reset : State.reset.mem.wf = true := rfl

/-- A run of writes that ends inside the 4096 bytes keeps it too. -/
theorem Memory.wf_writeBytes {m : Memory} (h : m.wf = true) {a : Nat} {bs : List Byte}
    (ha : a + bs.length ≤ 4096) : (m.writeBytes a bs).wf = true := by
  induction bs generalizing m a with
  | nil => exact h
  | cons b bs ih =>
    simp only [List.length_cons] at ha
    exact ih (Memory.wf_write h (by omega) b) (by omega)

/-- What a byte reads as after a run of writes (R54, R59). -/
theorem Memory.read_writeBytes {m : Memory} (h : m.wf = true) {a : Nat} {bs : List Byte}
    (ha : a + bs.length ≤ 4096) (a' : Nat) :
    (m.writeBytes a bs).read a' =
      if hr : a ≤ a' ∧ a' < a + bs.length then bs[a' - a]'(by omega) else m.read a' := by
  induction bs generalizing m a with
  | nil =>
    have hr : ¬ (a ≤ a' ∧ a' < a + ([] : List Byte).length) := by simp only [List.length_nil]; omega
    rw [dif_neg hr]; rfl
  | cons b bs ih =>
    simp only [List.length_cons] at ha
    simp only [Memory.writeBytes, List.length_cons]
    rw [ih (Memory.wf_write h (by omega) b) (by omega), Memory.read_write h]
    by_cases h1 : a = a'
    · subst h1
      rw [dif_neg (by omega), if_pos rfl, dif_pos (by omega)]
      simp
    · rw [if_neg h1]
      by_cases h2 : a + 1 ≤ a' ∧ a' < a + 1 + bs.length
      · rw [dif_pos h2, dif_pos (by omega)]
        have : a' - a = (a' - (a + 1)) + 1 := by omega
        simp only [this, List.getElem_cons_succ]
      · rw [dif_neg h2, dif_neg (by omega)]

theorem Memory.eq_of_read_from {m m' : Memory} {lo : Nat} (h : Memory.wfFrom lo m = true)
    (h' : Memory.wfFrom lo m' = true) (hr : ∀ a, m.read a = m'.read a) : m = m' := by
  induction m generalizing m' lo with
  | nil =>
    cases m' with
    | nil => rfl
    | cons e m' =>
      obtain ⟨k, b⟩ := e
      simp only [Memory.wfFrom, Bool.and_eq_true, decide_eq_true_eq] at h'
      have := hr k
      simp only [Memory.read, if_true] at this
      exact absurd this.symm h'.1.2
  | cons e m ih =>
    obtain ⟨k, b⟩ := e
    cases m' with
    | nil =>
      simp only [Memory.wfFrom, Bool.and_eq_true, decide_eq_true_eq] at h
      have := hr k
      simp only [Memory.read, if_true] at this
      exact absurd this h.1.2
    | cons e' m' =>
      obtain ⟨k', b'⟩ := e'
      simp only [Memory.wfFrom, Bool.and_eq_true, decide_eq_true_eq] at h h'
      obtain ⟨⟨⟨-, -⟩, hb⟩, hm⟩ := h
      obtain ⟨⟨⟨-, -⟩, hb'⟩, hm'⟩ := h'
      have hk : k = k' := by
        rcases Nat.lt_trichotomy k k' with hlt | heq | hgt
        · have := hr k
          have hne : k' ≠ k := by omega
          simp only [Memory.read, if_true, hne, if_false, Memory.read_below hm' (show k < k' + 1 by omega)] at this
          exact absurd this hb
        · exact heq
        · have := hr k'
          have hne : k ≠ k' := by omega
          simp only [Memory.read, if_true, hne, if_false, Memory.read_below hm (show k' < k + 1 by omega)] at this
          exact absurd this.symm hb'
      subst hk
      have hbb : b = b' := by
        have := hr k
        simpa only [Memory.read, if_true] using this
      subst hbb
      rw [ih hm hm' fun a => ?_]
      by_cases ha : a < k + 1
      · rw [Memory.read_below hm ha, Memory.read_below hm' ha]
      · have := hr a
        have hne : k ≠ a := by omega
        simpa only [Memory.read, hne, if_false] using this

/-- The bounds check passes exactly when the whole access lies in 0 to 4095 (R52). -/
theorem rangeFault_none_iff (a n : Nat) : rangeFault a n = none ↔ n = 0 ∨ a + n ≤ 4096 := by
  simp only [rangeFault]; split <;> simp_all

/-- Otherwise it reports the lowest address outside (R52, R267). -/
theorem rangeFault_some_iff (a n b : Nat) :
    rangeFault a n = some b ↔ n ≠ 0 ∧ 4096 < a + n ∧ b = max a 4096 := by
  simp only [rangeFault]
  split
  · next h => simp; omega
  · next h => simp only [Option.some.injEq]; omega

/-- Everything a guarded access can answer (R52, R266). -/
theorem guardRange_cases (s : State) (a n : Nat) (t : State) :
    ((n = 0 ∨ a + n ≤ 4096) ∧ guardRange s a n t = .next t) ∨
    ((n ≠ 0 ∧ 4096 < a + n) ∧ guardRange s a n t = .fault (.memoryOutOfBounds s.pc (max a 4096))) := by
  by_cases h : n = 0 ∨ a + n ≤ 4096
  · left; exact ⟨h, by simp only [guardRange, (rangeFault_none_iff a n).mpr h]⟩
  · right
    have h' : n ≠ 0 ∧ 4096 < a + n := by omega
    exact ⟨h', by simp only [guardRange, (rangeFault_some_iff a n _).mpr ⟨h'.1, h'.2, rfl⟩, raise]⟩

theorem State.byteAt_storeBytes (s : State) (h : s.mem.wf = true) {a : Nat} {bs : List Byte}
    (ha : a + bs.length ≤ 4096) (a' : Nat) :
    (s.storeBytes a bs).byteAt a' =
      if hr : a ≤ a' ∧ a' < a + bs.length then bs[a' - a]'(by omega) else s.byteAt a' :=
  Memory.read_writeBytes h ha a'

/-- A word placed at pc is the word the fetch reads (R53, R112). -/
theorem State.fetch_placeWordAtPc (s : State) (h : s.mem.wf = true) (hpc : s.pc.toNat ≤ 4094) (w : Word) :
    (s.placeWordAtPc w).fetch = .ok (w.extractLsb' 8 8 ++ w.extractLsb' 0 8) := by
  have hp : s.placeWordAtPc w = s.storeBytes s.pc.toNat [w.extractLsb' 8 8, w.extractLsb' 0 8] := if_pos hpc
  have hn := (rangeFault_none_iff s.pc.toNat 2).mpr (Or.inr (by omega))
  have hb := State.byteAt_storeBytes s h (a := s.pc.toNat) (bs := [w.extractLsb' 8 8, w.extractLsb' 0 8])
    (by simp only [List.length_cons, List.length_nil]; omega)
  have h0 := hb s.pc.toNat
  have h1 := hb (s.pc.toNat + 1)
  simp only [List.length_cons, List.length_nil, Nat.le_refl, true_and, Nat.le_add_right, Nat.add_sub_cancel_left,
    Nat.sub_self, List.getElem_cons_zero, List.getElem_cons_succ] at h0 h1
  rw [dif_pos (by omega)] at h0 h1
  rw [hp]
  simp only [State.fetch, State.memRead2, State.storeBytes_pc, hn, h0, h1]

/-- Two states with the same memory read the same bytes. -/
theorem State.byteAt_of_mem_eq {s t : State} (h : t.mem = s.mem) (a : Nat) : t.byteAt a = s.byteAt a := by
  simp only [State.byteAt, h]

/-- Everything the fetch can answer (R111, R112). -/
theorem State.fetch_cases (s : State) :
    (s.pc.toNat ≤ 4094 ∧ s.fetch = .ok (s.byteAt s.pc.toNat ++ s.byteAt (s.pc.toNat + 1))) ∨
    (4094 < s.pc.toNat ∧ s.fetch = .error (.memoryOutOfBounds s.pc (max s.pc.toNat 4096))) := by
  by_cases h : s.pc.toNat ≤ 4094
  · left
    have hn := (rangeFault_none_iff s.pc.toNat 2).mpr (Or.inr (by omega))
    exact ⟨h, by simp only [State.fetch, State.memRead2, hn]⟩
  · right
    have hf := (rangeFault_some_iff s.pc.toNat 2 _).mpr ⟨by omega, by omega, rfl⟩
    exact ⟨by omega, by simp only [State.fetch, State.memRead2, hf]⟩

end Sys2Proof.Machine
end

