-- ==== Sys2Proof/Laws/Registers.lean ====
section
/-! SUPPORT. What a register reads as after each update (spec 10_state.md R20), and what the flag-setting write leaves
(00_scope.md R13). -/

namespace Sys2Proof.Machine

variable (s : State)

theorem State.getV_setV (r r' : Reg) (b : Byte) :
    (s.setV r b).getV r' = if r = r' then b else s.getV r' := by
  simp only [State.getV, State.setV_v, Fin.getElem_fin, Vector.getElem_set, Fin.ext_iff]

@[simp] theorem State.getV_setV_same (r : Reg) (b : Byte) : (s.setV r b).getV r = b := by
  simp [State.getV_setV]

theorem State.getV_setV_other {r r' : Reg} (b : Byte) (h : r' ≠ r) : (s.setV r b).getV r' = s.getV r' := by
  simp [State.getV_setV, h.symm]

/-- Two states with the same register file read the same. -/
theorem State.getV_of_v_eq {s t : State} (h : t.v = s.v) (r : Reg) : t.getV r = s.getV r := by
  simp only [State.getV, h]

@[simp] theorem State.getV_setPc (w : Word) (r : Reg) : (s.setPc w).getV r = s.getV r := rfl
@[simp] theorem State.getV_advance (r : Reg) : s.advance.getV r = s.getV r := rfl
@[simp] theorem State.getV_skipIf (c : Bool) (r : Reg) : (s.skipIf c).getV r = s.getV r := rfl
@[simp] theorem State.getV_setIndex (w : Word) (r : Reg) : (s.setIndex w).getV r = s.getV r := rfl
@[simp] theorem State.getV_storeBytes (a : Nat) (bs : List Byte) (r : Reg) :
    (s.storeBytes a bs).getV r = s.getV r := rfl
@[simp] theorem State.getV_setDisplay (d : Display) (r : Reg) : (s.setDisplay d).getV r = s.getV r := rfl
@[simp] theorem State.getV_setDt (b : Byte) (r : Reg) : (s.setDt b).getV r = s.getV r := rfl
@[simp] theorem State.getV_setSt (b : Byte) (r : Reg) : (s.setSt b).getV r = s.getV r := rfl
@[simp] theorem State.getV_tickTimers (r : Reg) : s.tickTimers.getV r = s.getV r := rfl
@[simp] theorem State.getV_consumeDraw (r : Reg) : s.consumeDraw.getV r = s.getV r := rfl
@[simp] theorem State.getV_latchKeys (k : Keys) (r : Reg) : (s.latchKeys k).getV r = s.getV r := rfl
@[simp] theorem State.getV_takeTurn (r : Reg) : s.takeTurn.getV r = s.getV r := rfl

theorem State.getV_loadBytes (x : Reg) (a : Nat) (r : Reg) :
    (s.loadBytes x a).getV r = if r ≤ x then s.byteAt (a + r.val) else s.getV r := by
  simp [State.getV, State.loadBytes_v]

/-- The flag first, then the result: the result stays in VX, VF holds the flag unless VX is VF (R146 to R150). -/
theorem State.getV_writeFlagged_flagThenResult (x r : Reg) (f v : Byte) :
    (s.writeFlagged .flagThenResult x f v).getV r =
      if x = r then v else if regVF = r then f else s.getV r := by
  simp only [State.writeFlagged, State.getV_setV]

/-- The result first, then the flag: VF always ends as the flag (R13). -/
theorem State.getV_writeFlagged_resultThenFlag (x r : Reg) (f v : Byte) :
    (s.writeFlagged .resultThenFlag x f v).getV r =
      if regVF = r then f else if x = r then v else s.getV r := by
  simp only [State.writeFlagged, State.getV_setV]

/-- The registers FX55 stores are the first X+1, in order (R184). -/
theorem State.regsUpTo_length (x : Reg) : (s.regsUpTo x).length = x.val + 1 := by
  simp [State.regsUpTo]

theorem State.regsUpTo_getElem (x : Reg) (k : Nat) (h : k < (s.regsUpTo x).length) :
    (s.regsUpTo x)[k] = s.getV ⟨k, by have := s.regsUpTo_length x; omega⟩ := by
  simp [State.regsUpTo, State.getV]

end Sys2Proof.Machine
end

