-- ==== Sys2Proof/Laws/Control.lean ====
section
/-! SUPPORT. The call stack, the timers and the inputs, and everything one cycle or one step can do
(spec 10_state.md R27, R28; 40_control_flow.md R110; 60_exceptions.md R269, R280 to R288). -/

namespace Sys2Proof.Machine

/-! The call stack. -/

/-- Everything a push can answer (R117). -/
theorem State.pushReturn_cases (s : State) (depth : Fin 17) :
    (∃ (h : s.sp.val < depth.val) (t : State), s.pushReturn depth = .ok t ∧
      t = { s with stack := s.stack.set s.sp.val s.pc (by omega), sp := ⟨s.sp.val + 1, by omega⟩ }) ∨
    (depth.val ≤ s.sp.val ∧ s.pushReturn depth = .error (.stackOverflow s.pc)) := by
  by_cases h : s.sp.val < depth.val
  · exact .inl ⟨h, _, by simp only [State.pushReturn, dif_pos h], rfl⟩
  · exact .inr ⟨by omega, by simp only [State.pushReturn, dif_neg h]⟩

/-- Everything a pop can answer (R115). -/
theorem State.popReturn_cases (s : State) :
    (∃ (_ : s.sp.val ≠ 0) (t : State), s.popReturn = .ok (s.stack[s.sp.val - 1], t) ∧
      t = { s with sp := ⟨s.sp.val - 1, by omega⟩ }) ∨
    (s.sp.val = 0 ∧ s.popReturn = .error (.stackUnderflow s.pc)) := by
  by_cases h : s.sp.val = 0
  · exact .inr ⟨h, by simp only [State.popReturn, dif_pos h]⟩
  · exact .inl ⟨h, _, by simp only [State.popReturn, dif_neg h], rfl⟩

/-! The timers (R284). -/

theorem tickByte_toNat (b : Byte) : (tickByte b).toNat = b.toNat - 1 := by
  simp only [tickByte]
  split
  · next h => rw [BitVec.toNat_sub_of_le (by rw [BitVec.le_def]; exact h)]; simp
  · next h => omega

theorem tickTimes_toNat (n : Nat) (b : Byte) : (tickTimes n b).toNat = b.toNat - n := by
  induction n generalizing b with
  | zero => rfl
  | succ n ih => rw [tickTimes, ih, tickByte_toNat]; omega

/-! The inputs (R280, R281). -/

theorem State.keyDown_of_lt (s : State) (k : Byte) (h : k.toNat < 16) : s.keyDown k = s.keys[k.toNat] := by
  simp only [State.keyDown, dif_pos h]

theorem State.keyDown_of_ge (s : State) (k : Byte) (h : 16 ≤ k.toNat) : s.keyDown k = false := by
  simp only [State.keyDown, dif_neg (Nat.not_lt.mpr h)]

/-- The lowest key held is held, and no lower one is (R232). -/
theorem State.lowestKey_some (s : State) (k : Reg) (h : s.lowestKey = some k) :
    s.keys[k] = true ∧ ∀ j : Reg, j < k → s.keys[j] = false := by
  simp only [State.lowestKey, List.find?_eq_some_iff_getElem, List.length_finRange, List.getElem_finRange] at h
  obtain ⟨hk, i, hi, hik, hlow⟩ := h
  refine ⟨hk, fun j hj => ?_⟩
  have hjk : j.val < k.val := hj
  have hik' : i = k.val := by simpa [Fin.ext_iff] using hik
  have := hlow j.val (by omega)
  simpa using this

/-- There is no lowest key exactly when no key is held (R232). -/
theorem State.lowestKey_none (s : State) : s.lowestKey = none ↔ ∀ k : Reg, s.keys[k] = false := by
  simp [State.lowestKey]

/-! One cycle, one step. -/

/-- Everything one cycle can do: the fetch faults, decode faults, or the decoded instruction runs (R110, R269). -/
theorem cycle_cases (s : State) :
    (4094 < s.pc.toNat ∧ cycle s = .fault (.memoryOutOfBounds s.pc (max s.pc.toNat 4096))) ∨
    (s.pc.toNat ≤ 4094 ∧
      ((∃ i, decode (s.byteAt s.pc.toNat ++ s.byteAt (s.pc.toNat + 1)) = .ok i ∧ cycle s = exec i s) ∨
       (decode (s.byteAt s.pc.toNat ++ s.byteAt (s.pc.toNat + 1)) =
          .error (.invalidOpcode (s.byteAt s.pc.toNat ++ s.byteAt (s.pc.toNat + 1))) ∧
        cycle s = .fault (.invalidOpcode s.pc (s.byteAt s.pc.toNat ++ s.byteAt (s.pc.toNat + 1)))))) := by
  rcases s.fetch_cases with ⟨hpc, hf⟩ | ⟨hpc, hf⟩
  · refine .inr ⟨hpc, ?_⟩
    simp only [cycle, hf, orRaise, State.decodeFetched, decode]
    cases decodeWord? (s.byteAt s.pc.toNat ++ s.byteAt (s.pc.toNat + 1)) with
    | none => exact .inr ⟨rfl, rfl⟩
    | some i => exact .inl ⟨i, rfl, rfl⟩
  · exact .inl ⟨hpc, by simp only [cycle, hf, orRaise, raise]⟩

/-- A step that answers a next state ran the instruction at pc on the state the host's turn left (R110, R288). -/
theorem step_next {s t : State} (h : step s = .next t) :
    s.pc.toNat ≤ 4094 ∧ ∃ i, decode (s.byteAt s.pc.toNat ++ s.byteAt (s.pc.toNat + 1)) = .ok i ∧
      exec i s.takeTurn = .next t := by
  have hb : ∀ a, s.takeTurn.byteAt a = s.byteAt a := fun _ => rfl
  rcases cycle_cases s.takeTurn with ⟨-, hc⟩ | ⟨hpc, ⟨i, hi, hc⟩ | ⟨-, hc⟩⟩
  · rw [step, hc] at h; cases h
  · exact ⟨hpc, i, by simpa only [hb, State.takeTurn_pc] using hi, by rw [← hc]; exact h⟩
  · rw [step, hc] at h; cases h

end Sys2Proof.Machine
end

