-- ==== Sys2Proof/Laws/Display.lean ====
section
/-! SUPPORT. The pixel laws of the display and of one step of the rasterizer's loops (spec 43_display.md R210, R211). -/

namespace Sys2Proof.Machine

@[simp] theorem Display.pixel_clear (x y : Nat) : Display.pixel Display.clear x y = false := by
  simp [Display.pixel, Display.clear]

/-- Turning one pixel of the grid over changes that pixel alone. -/
theorem Display.pixel_toggle (d : Display) (x y x' y' : Nat) (hx : x < 64) (hy : y < 32) :
    (Display.toggle d x y).pixel x' y' =
      if x = x' ∧ y = y' then !Display.pixel d x' y' else Display.pixel d x' y' := by
  by_cases hy' : y' < 32
  · simp only [Display.pixel, Display.toggle, hy, hy', dif_pos, Vector.getElem_set]
    by_cases hyy : y = y'
    · subst hyy
      simp only [if_true, BitVec.getLsbD_xor, BitVec.getLsbD_twoPow, and_true]
      by_cases hxx : x = x'
      · subst hxx; simp [hx]
      · simp [hxx]
    · simp [hyy]
  · have hne : y ≠ y' := by omega
    simp [Display.pixel, hy', hne]

/-- Two grids that show the same pixels are the same grid. -/
theorem Display.eq_of_pixel {d d' : Display}
    (h : ∀ x y, x < 64 → y < 32 → Display.pixel d x y = Display.pixel d' x y) : d = d' := by
  apply Vector.ext
  intro y hy
  apply BitVec.eq_of_getLsbD_eq
  intro x hx
  have := h x y hx hy
  simpa only [Display.pixel, hy, dif_pos] using this

/-- One sprite pixel: a 1 bit turns its pixel over, a 0 bit changes nothing (R211). -/
theorem paintPixel_pixel (bit : Bool) (x y : Nat) (p : Display × Bool) (x' y' : Nat) (hx : x < 64) (hy : y < 32) :
    Display.pixel (paintPixel bit x y p).1 x' y' =
      (Display.pixel p.1 x' y' ^^ (bit && decide (x = x' ∧ y = y'))) := by
  cases bit
  · simp [paintPixel]
  · simp only [paintPixel, if_true, Display.pixel_toggle p.1 x y x' y' hx hy]
    by_cases h : x = x' ∧ y = y' <;> simp [h]

/-- One sprite pixel collides exactly when its bit is 1 and its pixel was on (R211). -/
theorem paintPixel_hit (bit : Bool) (x y : Nat) (p : Display × Bool) :
    (paintPixel bit x y p).2 = (p.2 || (bit && Display.pixel p.1 x y)) := by
  cases bit <;> simp [paintPixel]

@[simp] theorem paintRow_nil (b : Byte) (x0 y : Nat) (p : Display × Bool) : paintRow b x0 y [] p = p := rfl

@[simp] theorem paintRows_nil (m : Memory) (base x0 y0 : Nat) (p : Display × Bool) :
    paintRows m base x0 y0 [] p = p := rfl

theorem paintRow_clipped (b : Byte) (x0 y c : Nat) (cs : List Nat) (p : Display × Bool) (h : x0 + c > 63) :
    paintRow b x0 y (c :: cs) p = p := by simp [paintRow, h]

theorem paintRow_drawn (b : Byte) (x0 y c : Nat) (cs : List Nat) (p : Display × Bool) (h : x0 + c ≤ 63) :
    paintRow b x0 y (c :: cs) p = paintRow b x0 y cs (paintPixel (b.getLsbD (7 - c)) (x0 + c) y p) := by
  simp [paintRow, Nat.not_lt.mpr h]

theorem paintRows_skipped (m : Memory) (base x0 y0 r : Nat) (rs : List Nat) (p : Display × Bool)
    (h : y0 + r > 31 ∨ x0 > 63) : paintRows m base x0 y0 (r :: rs) p = paintRows m base x0 y0 rs p := by
  simp [paintRows, h]

theorem paintRows_drawn (m : Memory) (base x0 y0 r : Nat) (rs : List Nat) (p : Display × Bool)
    (h : ¬ (y0 + r > 31 ∨ x0 > 63)) :
    paintRows m base x0 y0 (r :: rs) p =
      paintRows m base x0 y0 rs (paintRow (m.read (base + r)) x0 (y0 + r) (List.range 8) p) := by
  simp [paintRows, h]

end Sys2Proof.Machine
end

