-- ==== Sys2Proof/Laws/PerInstr.lean ====
section
/-! SUPPORT. The per-instruction family TableRow: every instruction's word is covered by its own row of the spec's opcode
table (spec 30_encoding.md R87). The masks of the table are related to the fields once; each constructor's lemma cites
them. -/

namespace Sys2Proof

/-- The mask F000 keeps the family nibble. -/
theorem and_maskOp (w : Word) : w &&& 0xF000#16 = wordNNN (fieldOp w) 0#12 := by
  apply BitVec.eq_of_getLsbD_eq
  intro i hi
  simp only [wordNNN, fieldOp, BitVec.getLsbD_and, BitVec.getLsbD_append, BitVec.getLsbD_extractLsb']
  interval_cases i <;> simp

/-- The mask FFFF keeps the word. -/
theorem and_maskAll (w : Word) : w &&& 0xFFFF#16 = w := by
  have : 0xFFFF#16 = BitVec.allOnes 16 := by decide
  rw [this, BitVec.and_allOnes]

/-- The mask F00F keeps the family nibble and the low nibble. -/
theorem and_maskOpN (w : Word) : w &&& 0xF00F#16 = wordXYN (fieldOp w) 0 0 (fieldN w) := by
  apply BitVec.eq_of_getLsbD_eq
  intro i hi
  simp only [wordXYN, fieldOp, fieldN, BitVec.getLsbD_and, BitVec.getLsbD_append, BitVec.getLsbD_extractLsb']
  interval_cases i <;> simp

/-- The mask F0FF keeps the family nibble and the low byte. -/
theorem and_maskOpNN (w : Word) : w &&& 0xF0FF#16 = wordXNN (fieldOp w) 0 (fieldNN w) := by
  apply BitVec.eq_of_getLsbD_eq
  intro i hi
  simp only [wordXNN, fieldOp, fieldNN, BitVec.getLsbD_and, BitVec.getLsbD_append, BitVec.getLsbD_extractLsb']
  interval_cases i <;> simp

/-! A word made by a format's builder is covered by a row of that format. -/

theorem covers_wordNNN (name : String) (op : Nibble) (nnn : Addr12) :
    (OpcodeRow.mk name 0xF000 (wordNNN op 0)).covers (wordNNN op nnn) = true := by
  simp [OpcodeRow.covers, and_maskOp]

theorem covers_wordXNN (name : String) (op : Nibble) (x : Reg) (nn : Byte) :
    (OpcodeRow.mk name 0xF000 (wordNNN op 0)).covers (wordXNN op x nn) = true := by
  simp [OpcodeRow.covers, and_maskOp]

theorem covers_wordXYN (name : String) (op : Nibble) (x y : Reg) (n : Nibble) :
    (OpcodeRow.mk name 0xF000 (wordNNN op 0)).covers (wordXYN op x y n) = true := by
  simp [OpcodeRow.covers, and_maskOp]

theorem covers_wordXY (name : String) (op : Nibble) (x y : Reg) (n : Nibble) :
    (OpcodeRow.mk name 0xF00F (wordXYN op 0 0 n)).covers (wordXYN op x y n) = true := by
  simp [OpcodeRow.covers, and_maskOpN]

theorem covers_wordX (name : String) (op : Nibble) (x : Reg) (nn : Byte) :
    (OpcodeRow.mk name 0xF0FF (wordXNN op 0 nn)).covers (wordXNN op x nn) = true := by
  simp [OpcodeRow.covers, and_maskOpNN]

namespace Laws.TableRow

/-- The instruction's row is one of the table's, and its mask and match cover the instruction's word. -/
def Statement (i : Instr) : Prop := i.row ∈ opcodeTable ∧ i.row.covers (encode i) = true

theorem cls : Statement .cls := ⟨by decide, by decide⟩
theorem ret : Statement .ret := ⟨by decide, by decide⟩
theorem jp (nnn : Addr12) : Statement (.jp nnn) := ⟨by simp [opcodeTable, Instr.row], covers_wordNNN _ 0x1 nnn⟩
theorem call (nnn : Addr12) : Statement (.call nnn) := ⟨by simp [opcodeTable, Instr.row], covers_wordNNN _ 0x2 nnn⟩
theorem seImm (x : Reg) (nn : Byte) : Statement (.seImm x nn) :=
  ⟨by simp [opcodeTable, Instr.row], covers_wordXNN _ 0x3 x nn⟩
theorem sneImm (x : Reg) (nn : Byte) : Statement (.sneImm x nn) :=
  ⟨by simp [opcodeTable, Instr.row], covers_wordXNN _ 0x4 x nn⟩
theorem seReg (x y : Reg) : Statement (.seReg x y) :=
  ⟨by simp [opcodeTable, Instr.row], covers_wordXY _ 0x5 x y 0x0⟩
theorem ldImm (x : Reg) (nn : Byte) : Statement (.ldImm x nn) :=
  ⟨by simp [opcodeTable, Instr.row], covers_wordXNN _ 0x6 x nn⟩
theorem addImm (x : Reg) (nn : Byte) : Statement (.addImm x nn) :=
  ⟨by simp [opcodeTable, Instr.row], covers_wordXNN _ 0x7 x nn⟩
theorem ldReg (x y : Reg) : Statement (.ldReg x y) :=
  ⟨by simp [opcodeTable, Instr.row], covers_wordXY _ 0x8 x y 0x0⟩
theorem orReg (x y : Reg) : Statement (.orReg x y) :=
  ⟨by simp [opcodeTable, Instr.row], covers_wordXY _ 0x8 x y 0x1⟩
theorem andReg (x y : Reg) : Statement (.andReg x y) :=
  ⟨by simp [opcodeTable, Instr.row], covers_wordXY _ 0x8 x y 0x2⟩
theorem xorReg (x y : Reg) : Statement (.xorReg x y) :=
  ⟨by simp [opcodeTable, Instr.row], covers_wordXY _ 0x8 x y 0x3⟩
theorem addReg (x y : Reg) : Statement (.addReg x y) :=
  ⟨by simp [opcodeTable, Instr.row], covers_wordXY _ 0x8 x y 0x4⟩
theorem subReg (x y : Reg) : Statement (.subReg x y) :=
  ⟨by simp [opcodeTable, Instr.row], covers_wordXY _ 0x8 x y 0x5⟩
theorem shr (x y : Reg) : Statement (.shr x y) := ⟨by simp [opcodeTable, Instr.row], covers_wordXY _ 0x8 x y 0x6⟩
theorem subn (x y : Reg) : Statement (.subn x y) := ⟨by simp [opcodeTable, Instr.row], covers_wordXY _ 0x8 x y 0x7⟩
theorem shl (x y : Reg) : Statement (.shl x y) := ⟨by simp [opcodeTable, Instr.row], covers_wordXY _ 0x8 x y 0xE⟩
theorem sneReg (x y : Reg) : Statement (.sneReg x y) :=
  ⟨by simp [opcodeTable, Instr.row], covers_wordXY _ 0x9 x y 0x0⟩
theorem ldI (nnn : Addr12) : Statement (.ldI nnn) := ⟨by simp [opcodeTable, Instr.row], covers_wordNNN _ 0xA nnn⟩
theorem jpV0 (nnn : Addr12) : Statement (.jpV0 nnn) := ⟨by simp [opcodeTable, Instr.row], covers_wordNNN _ 0xB nnn⟩
theorem rnd (x : Reg) (nn : Byte) : Statement (.rnd x nn) :=
  ⟨by simp [opcodeTable, Instr.row], covers_wordXNN _ 0xC x nn⟩
theorem drw (x y : Reg) (n : Height) : Statement (.drw x y n) :=
  ⟨by simp [opcodeTable, Instr.row], covers_wordXYN _ 0xD x y _⟩
theorem skp (x : Reg) : Statement (.skp x) := ⟨by simp [opcodeTable, Instr.row], covers_wordX _ 0xE x 0x9E⟩
theorem sknp (x : Reg) : Statement (.sknp x) := ⟨by simp [opcodeTable, Instr.row], covers_wordX _ 0xE x 0xA1⟩
theorem ldFromDt (x : Reg) : Statement (.ldFromDt x) :=
  ⟨by simp [opcodeTable, Instr.row], covers_wordX _ 0xF x 0x07⟩
theorem waitKey (x : Reg) : Statement (.waitKey x) :=
  ⟨by simp [opcodeTable, Instr.row], covers_wordX _ 0xF x 0x0A⟩
theorem ldDt (x : Reg) : Statement (.ldDt x) := ⟨by simp [opcodeTable, Instr.row], covers_wordX _ 0xF x 0x15⟩
theorem ldSt (x : Reg) : Statement (.ldSt x) := ⟨by simp [opcodeTable, Instr.row], covers_wordX _ 0xF x 0x18⟩
theorem addI (x : Reg) : Statement (.addI x) := ⟨by simp [opcodeTable, Instr.row], covers_wordX _ 0xF x 0x1E⟩
theorem ldFont (x : Reg) : Statement (.ldFont x) := ⟨by simp [opcodeTable, Instr.row], covers_wordX _ 0xF x 0x29⟩
theorem ldBcd (x : Reg) : Statement (.ldBcd x) := ⟨by simp [opcodeTable, Instr.row], covers_wordX _ 0xF x 0x33⟩
theorem storeRegs (x : Reg) : Statement (.storeRegs x) :=
  ⟨by simp [opcodeTable, Instr.row], covers_wordX _ 0xF x 0x55⟩
theorem loadRegs (x : Reg) : Statement (.loadRegs x) :=
  ⟨by simp [opcodeTable, Instr.row], covers_wordX _ 0xF x 0x65⟩

end Laws.TableRow

end Sys2Proof
end

