-- ==== Sys2Proof/Laws/Sprite.lean ====
section
/-! SUPPORT. What the rasterizer's two loops do, each said once over the columns or rows still to do
(spec 43_display.md R211). Both are by induction on how many are left. -/

namespace Sys2Proof.Machine

/-- The columns k to 7 of one row (n of them): each 1 bit inside the grid turns its pixel over, no other pixel changes,
and the row collides when one of those pixels was on. -/
theorem paintRow_spec (b : Byte) (x0 y : Nat) (hy : y < 32) (n k : Nat) (p : Display × Bool) (hk : k + n = 8) :
    (∀ px py, px < 64 → py < 32 → Display.pixel (paintRow b x0 y (List.range' k n) p).1 px py =
      (Display.pixel p.1 px py ^^ (decide (py = y) && decide (x0 + k ≤ px) && decide (px ≤ x0 + 7) &&
        b.getLsbD (7 - (px - x0))))) ∧
    ((paintRow b x0 y (List.range' k n) p).2 = true ↔ (p.2 = true ∨ ∃ px, px < 64 ∧ x0 + k ≤ px ∧ px ≤ x0 + 7 ∧
      b.getLsbD (7 - (px - x0)) = true ∧ Display.pixel p.1 px y = true)) := by
  induction n generalizing k p with
  | zero =>
    simp only [List.range'_zero, paintRow_nil]
    constructor
    · intro px py _ _
      have h2 : (decide (x0 + k ≤ px) && decide (px ≤ x0 + 7)) = false := by simp; omega
      rw [Bool.and_assoc (decide (py = y)), h2]; simp
    · refine ⟨.inl, ?_⟩
      rintro (h | ⟨px, _, h1, h2, _⟩)
      · exact h
      · omega
  | succ n ih =>
    rw [List.range'_succ]
    by_cases hc : x0 + k > 63
    · rw [paintRow_clipped _ _ _ _ _ _ hc]
      constructor
      · intro px py hx _
        have : decide (x0 + k ≤ px) = false := by simp; omega
        simp [this]
      · refine ⟨.inl, ?_⟩
        rintro (h | ⟨px, _, h1, h2, _⟩)
        · exact h
        · omega
    · have hx0 : x0 + k < 64 := by omega
      have hkk : x0 + k - x0 = k := by omega
      rw [paintRow_drawn _ _ _ _ _ _ (by omega)]
      obtain ⟨i1, i2⟩ := ih (k + 1) (paintPixel (b.getLsbD (7 - k)) (x0 + k) y p) (by omega)
      constructor
      · intro px py hx hpy
        rw [i1 px py hx hpy, paintPixel_pixel _ _ _ _ _ _ hx0 hy]
        by_cases h1 : py = y
        · subst h1
          by_cases h2 : px = x0 + k
          · subst h2
            have h7 : k ≤ 7 := by omega
            simp [hkk, h7]
          · have e1 : decide (x0 + (k + 1) ≤ px) = decide (x0 + k ≤ px) := by simp; omega
            have e2 : ¬ (x0 + k = px) := by omega
            simp [e1, e2]
        · have : ¬ (y = py) := fun h => h1 h.symm
          simp [h1, this]
      · rw [i2, paintPixel_hit]
        simp only [paintPixel_pixel _ _ _ _ _ _ hx0 hy]
        constructor
        · rintro (h | ⟨px, h1, h2, h3, h4, h5⟩)
          · simp only [Bool.or_eq_true, Bool.and_eq_true] at h
            rcases h with h | ⟨ha, hb⟩
            · exact .inl h
            · exact .inr ⟨x0 + k, hx0, by omega, by omega, by rw [hkk]; exact ha, hb⟩
          · have : ¬ (x0 + k = px) := by omega
            simp [this] at h5
            exact .inr ⟨px, h1, by omega, h3, h4, h5⟩
        · rintro (h | ⟨px, h1, h2, h3, h4, h5⟩)
          · exact .inl (by simp [h])
          · by_cases hh : px = x0 + k
            · subst hh
              rw [hkk] at h4
              exact .inl (by simp [h4, h5])
            · have : ¬ (x0 + k = px) := by omega
              exact .inr ⟨px, h1, by omega, h3, h4, by simp [this, h5]⟩

/-- The rows k to k+n-1 of a sprite: each 1 bit inside the grid turns its pixel over, no other pixel changes, and the
draw collides when one of those pixels was on before it (distinct rows and columns are distinct pixels). -/
theorem paintRows_spec (m : Memory) (base x0 y0 n k : Nat) (p : Display × Bool) :
    (∀ px py, px < 64 → py < 32 → Display.pixel (paintRows m base x0 y0 (List.range' k n) p).1 px py =
      (Display.pixel p.1 px py ^^ (decide (x0 ≤ px) && decide (px ≤ x0 + 7) && decide (y0 + k ≤ py) &&
        decide (py < y0 + k + n) && (m.read (base + (py - y0))).getLsbD (7 - (px - x0))))) ∧
    ((paintRows m base x0 y0 (List.range' k n) p).2 = true ↔ (p.2 = true ∨ ∃ px py, px < 64 ∧ py < 32 ∧
      Display.pixel p.1 px py = true ∧ (decide (x0 ≤ px) && decide (px ≤ x0 + 7) && decide (y0 + k ≤ py) &&
        decide (py < y0 + k + n) && (m.read (base + (py - y0))).getLsbD (7 - (px - x0))) = true)) := by
  induction n generalizing k p with
  | zero =>
    simp only [List.range'_zero, paintRows_nil]
    constructor
    · intro px py _ _
      have h2 : (decide (y0 + k ≤ py) && decide (py < y0 + k + 0)) = false := by simp
      rw [Bool.and_assoc _ (decide (y0 + k ≤ py)), h2]; simp
    · refine ⟨.inl, ?_⟩
      rintro (h | ⟨px, py, _, h1, h2, h3⟩)
      · exact h
      · simp at h3; omega
  | succ n ih =>
    rw [List.range'_succ]
    by_cases hc : y0 + k > 31 ∨ x0 > 63
    · rw [paintRows_skipped _ _ _ _ _ _ _ hc]
      obtain ⟨i1, i2⟩ := ih (k + 1) p
      constructor
      · intro px py hx hy
        rw [i1 px py hx hy]
        congr 1
        by_cases h1 : x0 ≤ px
        · have e : ¬ (y0 + k ≤ py) := by omega
          have e' : ¬ (y0 + (k + 1) ≤ py) := by omega
          simp [e, e']
        · simp [h1]
      · rw [i2]
        constructor <;> rintro (h | ⟨px, py, h1, h2, h3, h4⟩)
        · exact .inl h
        · simp at h4; omega
        · exact .inl h
        · simp at h4; omega
    · have hy : y0 + k < 32 := by omega
      have hkk : y0 + k - y0 = k := by omega
      rw [paintRows_drawn _ _ _ _ _ _ _ hc]
      obtain ⟨r1, r2⟩ := paintRow_spec (m.read (base + k)) x0 (y0 + k) hy 8 0 p rfl
      rw [← List.range_eq_range'] at r1 r2
      obtain ⟨i1, i2⟩ := ih (k + 1) (paintRow (m.read (base + k)) x0 (y0 + k) (List.range 8) p)
      constructor
      · intro px py hx hpy
        rw [i1 px py hx hpy, r1 px py hx hpy]
        by_cases h1 : py = y0 + k
        · subst h1
          have e' : ¬ (y0 + (k + 1) ≤ y0 + k) := by omega
          have e2 : y0 + k < y0 + k + (n + 1) := by omega
          simp [hkk, e', e2]
        · have e1 : decide (y0 + (k + 1) ≤ py) = decide (y0 + k ≤ py) := by simp; omega
          have e2 : decide (py < y0 + (k + 1) + n) = decide (py < y0 + k + (n + 1)) := by simp; omega
          simp [h1, e1, e2]
      · rw [i2, r2]
        constructor
        · rintro ((h | ⟨px, h1, h2, h3, h4, h5⟩) | ⟨px, py, h1, h2, h3, h4⟩)
          · exact .inl h
          · exact .inr ⟨px, y0 + k, h1, hy, h5, by simp [hkk, h4]; omega⟩
          · rw [r1 px py h1 h2] at h3
            simp at h4
            have : ¬ (py = y0 + k) := by omega
            simp [this] at h3
            exact .inr ⟨px, py, h1, h2, h3, by simp [h4]; omega⟩
        · rintro (h | ⟨px, py, h1, h2, h3, h4⟩)
          · exact .inl (.inl h)
          · by_cases hh : py = y0 + k
            · subst hh
              simp [hkk] at h4
              exact .inl (.inr ⟨px, h1, by omega, by omega, h4.2, h3⟩)
            · exact .inr ⟨px, py, h1, h2, by rw [r1 px py h1 h2]; simp [hh, h3], by simp at h4; simp [h4]; omega⟩

/-- A whole draw: exactly the covered pixels turn over, and it collides when one of them was on before it
(R211, R212, R213). -/
theorem State.drawSprite_spec (s : State) (x0 y0 n : Nat) :
    (∀ px py, px < 64 → py < 32 → Display.pixel (s.drawSprite x0 y0 n).1 px py =
      (s.display.pixel px py ^^ spriteCovers s x0 y0 n px py)) ∧
    ((s.drawSprite x0 y0 n).2 = true ↔ ∃ px py, px < 64 ∧ py < 32 ∧ s.display.pixel px py = true ∧
      spriteCovers s x0 y0 n px py = true) := by
  have h := paintRows_spec s.mem (s.effAddr 0) x0 y0 n 0 (s.display, false)
  rw [← List.range_eq_range'] at h
  simpa [State.drawSprite, spriteCovers, State.effAddr, State.byteAt] using h

/-- Why no draw meets R214's sentence on the second flag beside R213: any flag that is R213's iff is false on the second
draw of a sprite over the grid that was on exactly at its pixels (log entry 18). Nothing of this model is used. -/
theorem second_flag_false_of_R213 {Pixel : Type} (covers : Pixel → Bool) (flag : (Pixel → Bool) → Bool)
    (r213 : ∀ grid, flag grid = true ↔ ∃ p, covers p = true ∧ grid p = true) :
    flag (fun p => covers p ^^ covers p) = false := by
  rw [Bool.eq_false_iff, Ne, r213]
  simp

end Sys2Proof.Machine
end

