-- ==== Sys2Proof/Tests/Slice0.lean ====
section
/-! SUPPORT. Small tests. Expected results come from the spec: the encodings of 30_encoding.md R87, the vectors of
95_test_vectors.md (named beside each test) and the rules' own examples. The last part shows, for each statement with
hypotheses, states and operands that meet them. -/

namespace Sys2Proof.Tests

open Sys2Proof.Machine

set_option maxRecDepth 4000

/-! ## Helpers -/

/-- Reset with some registers set. -/
def regs (l : List (Reg × Byte)) : State := l.foldl (fun s e => s.setV e.1 e.2) State.reset

/-- The state after the instruction a word decodes to, if it goes on. -/
def after (w : Word) (s : State) : Option State :=
  match decode w with
  | .ok i => nextState (exec i s)
  | .error _ => none

/-- The fault a word's instruction raises, if it raises one. -/
def faultOf (w : Word) (s : State) : Option Fault :=
  match decode w with
  | .ok i => match exec i s with
    | .fault f => some f
    | .next _ => none
    | .refused _ => none
  | .error _ => none

/-- The fault of a result. -/
def resultFault : Result → Option Fault
  | .fault f => some f
  | .next _ => none
  | .refused _ => none

/-- A result that goes on. -/
def isNext (r : Result) : Bool := (nextState r).isSome

/-- No key held. -/
def noKeys : Keys := Vector.replicate 16 false

/-- The given codes held. -/
def held (l : List Reg) : Keys := l.foldl (fun (k : Keys) (c : Reg) => k.set c.val true) noKeys

/-- Reset with a word at pc and a host turn of no tick and no key. -/
def atWord (w : Word) : State := { State.reset.placeWordAtPc w with turns := [⟨0, noKeys⟩] }

/-- Reset with bytes in memory. -/
def withBytes (a : Nat) (bs : List Byte) : State := State.reset.storeBytes a bs

/-! ## Well-formedness: a word of each illegal range of R88 is refused -/

theorem test_illformed_family0 : wordWellFormed 0x0123 = false := by decide
theorem test_illformed_family0_zero : wordWellFormed 0x0000 = false := by decide
theorem test_illformed_family5 : wordWellFormed 0x5121 = false := by decide
theorem test_illformed_family8 : wordWellFormed 0x8128 = false := by decide
theorem test_illformed_family9 : wordWellFormed 0x912F = false := by decide
theorem test_illformed_familyE : wordWellFormed 0xE19F = false := by decide
theorem test_illformed_familyF : wordWellFormed 0xF108 = false := by decide
theorem test_wellformed_attested : wordWellFormed 0x8014 = true := by decide

/-! ## Decoding: a word of each row of R87, written out from its pattern -/

theorem test_decode_cls : decode 0x00E0 = .ok .cls := by decide
theorem test_decode_ret : decode 0x00EE = .ok .ret := by decide
theorem test_decode_jp : decode 0x1ABC = .ok (.jp 0xABC) := by decide
theorem test_decode_call : decode 0x2FED = .ok (.call 0xFED) := by decide
theorem test_decode_seImm : decode 0x332A = .ok (.seImm 3 0x2A) := by decide
theorem test_decode_sneImm : decode 0x4F81 = .ok (.sneImm 15 0x81) := by decide
theorem test_decode_seReg : decode 0x5120 = .ok (.seReg 1 2) := by decide
theorem test_decode_ldImm : decode 0x6005 = .ok (.ldImm 0 5) := by decide
theorem test_decode_addImm : decode 0x71FF = .ok (.addImm 1 0xFF) := by decide
theorem test_decode_ldReg : decode 0x8120 = .ok (.ldReg 1 2) := by decide
theorem test_decode_orReg : decode 0x8121 = .ok (.orReg 1 2) := by decide
theorem test_decode_andReg : decode 0x8122 = .ok (.andReg 1 2) := by decide
theorem test_decode_xorReg : decode 0x8123 = .ok (.xorReg 1 2) := by decide
theorem test_decode_addReg : decode 0x8014 = .ok (.addReg 0 1) := by decide
theorem test_decode_subReg : decode 0x8125 = .ok (.subReg 1 2) := by decide
theorem test_decode_shr : decode 0x8456 = .ok (.shr 4 5) := by decide
theorem test_decode_subn : decode 0x8127 = .ok (.subn 1 2) := by decide
theorem test_decode_shl : decode 0x8ABE = .ok (.shl 10 11) := by decide
theorem test_decode_sneReg : decode 0x9120 = .ok (.sneReg 1 2) := by decide
theorem test_decode_ldI : decode 0xA2F0 = .ok (.ldI 0x2F0) := by decide
theorem test_decode_jpV0 : decode 0xBFFF = .ok (.jpV0 0xFFF) := by decide
theorem test_decode_rnd : decode 0xC30F = .ok (.rnd 3 0x0F) := by decide
theorem test_decode_drw : decode 0xD12F = .ok (.drw 1 2 15) := by decide
theorem test_decode_skp : decode 0xE19E = .ok (.skp 1) := by decide
theorem test_decode_sknp : decode 0xE1A1 = .ok (.sknp 1) := by decide
theorem test_decode_ldFromDt : decode 0xF307 = .ok (.ldFromDt 3) := by decide
theorem test_decode_waitKey : decode 0xF20A = .ok (.waitKey 2) := by decide
theorem test_decode_ldDt : decode 0xF315 = .ok (.ldDt 3) := by decide
theorem test_decode_ldSt : decode 0xF318 = .ok (.ldSt 3) := by decide
theorem test_decode_addI : decode 0xF21E = .ok (.addI 2) := by decide
theorem test_decode_ldFont : decode 0xF029 = .ok (.ldFont 0) := by decide
theorem test_decode_ldBcd : decode 0xF533 = .ok (.ldBcd 5) := by decide
theorem test_decode_storeRegs : decode 0xF255 = .ok (.storeRegs 2) := by decide
theorem test_decode_loadRegs : decode 0xFF65 = .ok (.loadRegs 15) := by decide
theorem test_decode_bytes_high_first : decodeBytes [0x61, 0x03, 0xFF] = .ok (.ldImm 1 3, [0xFF]) := by decide
theorem test_decode_bytes_truncated : decodeBytes [0x61] = .error (.truncated 1) := by decide
theorem test_decode_table_word : decodeTableWord 16 0x8014 = some (.addReg 0 1) := by decide
theorem test_encode_draw : encode (.drw 1 2 15) = 0xD12F := by decide

/-! ## Fetch and reset -/

/-- FD-5: an odd pc fetches; the fetch is big-endian. -/
theorem test_fetch_odd : ((withBytes 0x201 [0x60, 0x07]).setPc 0x201).fetch = .ok 0x6007 := by decide
/-- FD-4. -/
theorem test_fetch_last_byte : resultFault (cycle (State.reset.setPc 0xFFF)) = some (.memoryOutOfBounds 0xFFF 0x1000) := by
  decide
/-- CF-5, second step. -/
theorem test_fetch_past_end :
    resultFault (cycle (State.reset.setPc 0x10FE)) = some (.memoryOutOfBounds 0x10FE 0x10FE) := by decide
/-- FD-6. -/
theorem test_zero_word_faults : resultFault (cycle State.reset) = some (.invalidOpcode 0x200 0x0000) := by decide
/-- IM-21: the first byte of glyph 0. -/
theorem test_reset_glyph : State.reset.byteAt 0 = 0xF0 ∧ State.reset.byteAt 79 = 0x80 ∧ State.reset.byteAt 80 = 0 := by
  decide

/-! ## Control transfer -/

/-- CF-7. -/
theorem test_ret : (after 0x00EE { State.reset with sp := 1, stack := State.reset.stack.set 0 0x204 }).map
    (fun t => (t.pc, t.sp.val, t.stack[0])) = some (0x206, 0, 0x204) := by decide
/-- CF-8. -/
theorem test_ret_underflow : faultOf 0x00EE State.reset = some (.stackUnderflow 0x200) := by decide
/-- CF-1. -/
theorem test_jp : (after 0x1ABC State.reset).map (fun t => t.pc) = some 0xABC := by decide
/-- CF-10. -/
theorem test_call : (after 0x2300 { State.reset with sp := 15, pc := 0x204 }).map
    (fun t => (t.pc, t.sp.val, t.stack[15])) = some (0x300, 16, 0x204) := by decide
/-- CF-9. -/
theorem test_call_overflow : faultOf 0x2300 { State.reset with sp := 16 } = some (.stackOverflow 0x200) := by decide
/-- CF-11. -/
theorem test_seImm_taken : (after 0x332A (regs [(3, 0x2A)])).map (fun t => t.pc) = some 0x204 := by decide
/-- CF-12. -/
theorem test_seImm_not_taken : (after 0x332B (regs [(3, 0x2A)])).map (fun t => t.pc) = some 0x202 := by decide
/-- CF-13. -/
theorem test_sneImm_not_taken : (after 0x432A (regs [(3, 0x2A)])).map (fun t => t.pc) = some 0x202 := by decide
/-- CF-14. -/
theorem test_sneImm_taken : (after 0x4300 (regs [(3, 0x2A)])).map (fun t => t.pc) = some 0x204 := by decide
/-- CF-16. -/
theorem test_seReg_not_taken : (after 0x5120 (regs [(1, 7), (2, 8)])).map (fun t => t.pc) = some 0x202 := by decide
/-- CF-17. -/
theorem test_sneReg_taken : (after 0x9120 (regs [(1, 7), (2, 8)])).map (fun t => t.pc) = some 0x204 := by decide
/-- CF-5. -/
theorem test_jpV0_past_end : (after 0xBFFF (regs [(0, 0xFF)])).map (fun t => t.pc) = some 0x10FE := by decide

/-! ## Register ALU -/

/-- AL-1. -/
theorem test_ldImm : (after 0x6A42 State.reset).map (fun t => (t.getV 10, t.pc)) = some (0x42, 0x202) := by decide
/-- AL-3. -/
theorem test_addImm : (after 0x71FF (regs [(1, 5), (15, 1)])).map (fun t => (t.getV 1, t.getV 15)) = some (4, 1) := by
  decide
/-- AL-5. -/
theorem test_ldReg : (after 0x8120 (regs [(2, 0x33)])).map (fun t => t.getV 1) = some 0x33 := by decide
/-- AL-6. -/
theorem test_orReg : (after 0x8121 (regs [(1, 0xF0), (2, 0x0C), (15, 1)])).map (fun t => (t.getV 1, t.getV 15)) =
    some (0xFC, 1) := by decide
/-- AL-7. -/
theorem test_andReg : (after 0x8122 (regs [(1, 0xF0), (2, 0x3C)])).map (fun t => t.getV 1) = some 0x30 := by decide
/-- AL-8. -/
theorem test_xorReg : (after 0x8123 (regs [(1, 0xF0), (2, 0x3C)])).map (fun t => t.getV 1) = some 0xCC := by decide
/-- AL-10. -/
theorem test_addReg_carry : (after 0x8124 (regs [(1, 0xFF), (2, 1)])).map (fun t => (t.getV 1, t.getV 15)) =
    some (0, 1) := by decide
/-- AL-13. -/
theorem test_addReg_vf : (after 0x8F14 (regs [(15, 0xFF), (1, 1)])).map (fun t => t.getV 15) = some 0 := by decide
/-- AL-16. -/
theorem test_subReg_borrow : (after 0x8125 (regs [(1, 5), (2, 7)])).map (fun t => (t.getV 1, t.getV 15)) =
    some (0xFE, 0) := by decide
/-- AL-19. -/
theorem test_subReg_vf : (after 0x8F15 (regs [(15, 9), (1, 4)])).map (fun t => t.getV 15) = some 5 := by decide
/-- AL-22. -/
theorem test_shr : (after 0x8456 (regs [(4, 0xFF)])).map (fun t => (t.getV 4, t.getV 15)) = some (0x7F, 1) := by decide
/-- AL-24. -/
theorem test_subn : (after 0x8127 (regs [(1, 5), (2, 7)])).map (fun t => (t.getV 1, t.getV 15)) = some (2, 1) := by
  decide
/-- AL-26: equal operands borrow nothing and set no flag. -/
theorem test_subn_equal : (after 0x8127 (regs [(1, 9), (2, 9), (15, 1)])).map (fun t => (t.getV 1, t.getV 15)) =
    some (0, 0) := by decide
/-- AL-29. -/
theorem test_shl : (after 0x840E (regs [(4, 0x80)])).map (fun t => (t.getV 4, t.getV 15)) = some (0, 1) := by decide
/-- AL-31. -/
theorem test_rnd : (after 0xC30F { State.reset with randomIn := [0xA7, 0x5C] }).map
    (fun t => (t.getV 3, t.randomIn, t.drawCount)) = some (0x07, [0x5C], 1) := by decide

/-! ## Index and memory -/

/-- IM-1. -/
theorem test_ldI : (after 0xA2F0 State.reset).map (fun t => t.index) = some 0x2F0 := by decide
/-- IM-3. -/
theorem test_addI : (after 0xF21E ((regs [(2, 1)]).setIndex 0xFFF)).map (fun t => t.index) = some 0x1000 := by decide
/-- IM-4. -/
theorem test_addI_wraps : (after 0xF21E ((regs [(2, 2)]).setIndex 0xFFFF)).map (fun t => t.index) = some 1 := by decide
/-- IM-8. -/
theorem test_ldFont : (after 0xF029 (regs [(0, 0xFF)])).map (fun t => t.index) = some 0x4FB := by decide
/-- W4. -/
theorem test_ldBcd : (after 0xF533 ((regs [(5, 255)]).setIndex 0x300)).map
    (fun t => ([0x300, 0x301, 0x302].map t.byteAt, t.index)) = some ([2, 5, 5], 0x300) := by decide
/-- IM-13. -/
theorem test_ldBcd_fault : faultOf 0xF533 ((regs [(5, 9)]).setIndex 0xFFE) = some (.memoryOutOfBounds 0x200 0x1000) := by
  decide
/-- IM-14. -/
theorem test_storeRegs : (after 0xF255 ((regs [(0, 1), (1, 2), (2, 3), (3, 4)]).setIndex 0x400)).map
    (fun t => [0x3FF, 0x400, 0x401, 0x402, 0x403].map t.byteAt) = some [0, 1, 2, 3, 0] := by decide
/-- IM-16. -/
theorem test_storeRegs_fault : faultOf 0xFF55 (State.reset.setIndex 0xFF1) = some (.memoryOutOfBounds 0x200 0x1000) := by
  decide
/-- IM-18. -/
theorem test_loadRegs : (after 0xF265 (((withBytes 0x400 [9, 8, 7, 6]).setIndex 0x400).setV 3 0x55)).map
    (fun t => [t.getV 0, t.getV 1, t.getV 2, t.getV 3]) = some [9, 8, 7, 0x55] := by decide
/-- IM-20. -/
theorem test_loadRegs_fault : faultOf 0xF165 (State.reset.setIndex 0xFFF) = some (.memoryOutOfBounds 0x200 0x1000) := by
  decide

/-! ## Display -/

/-- DS-13. -/
theorem test_cls : (after 0x00E0 ((regs [(15, 1)]).setDisplay (Vector.replicate 32 7))).map
    (fun t => (t.display, t.getV 15)) = some (Display.clear, 1) := by decide
/-- DS-4: clipped at the corner. -/
theorem test_drw_clipped : (after 0xD012 (((withBytes 0x300 [0xFF, 0xFF]).setIndex 0x300).setV 0 62 |>.setV 1 31)).map
    (fun t => (t.display.pixel 62 31, t.display.pixel 63 31, t.display.pixel 0 31, t.display.pixel 62 0, t.getV 15)) =
      some (true, true, false, false, 0) := by decide
/-- DS-10: glyph 0's first row over an FF row collides in columns 4 to 7. -/
theorem test_drw_collision :
    (after 0xD011 ((regs [(0, 4)]).setDisplay (State.reset.display.set 0 0xFF))).map
      (fun t => (t.display[0], t.getV 15)) = some (0x0F, 1) := by decide

/-- R211's pseudocode by hand: glyph 0's first row drawn twice over columns 0 to 3 that were on. The first draw turns them
off and collides, the second turns them on again and does not (log entry 18). -/
theorem test_drw_twice_over_on_pixels :
    ((after 0xD011 (State.reset.setDisplay (State.reset.display.set 0 0x0F))).map fun t => (t.display[0], t.getV 15)) =
      some (0x00, 1) ∧
    ((after 0xD011 (State.reset.setV 15 1)).map fun t => (t.display[0], t.getV 15)) = some (0x0F, 0) := by decide

/-! ## Keys and timers -/

/-- KT-1. -/
theorem test_skp : (after 0xE19E ((regs [(1, 5)]).latchKeys (held [5]))).map (fun t => t.pc) = some 0x204 := by decide
/-- KT-5. -/
theorem test_skp_code_past_15 :
    (after 0xE19E ((regs [(1, 0x20)]).latchKeys (Vector.replicate 16 true))).map (fun t => t.pc) = some 0x202 := by decide
/-- KT-4. -/
theorem test_sknp : (after 0xE1A1 ((regs [(1, 5)]).latchKeys (held [5]))).map (fun t => t.pc) = some 0x202 := by decide
/-- KT-7. -/
theorem test_waitKey : (after 0xF20A (State.reset.latchKeys (held [3, 10]))).map (fun t => (t.getV 2, t.pc)) =
    some (3, 0x202) := by decide
/-- KT-8. -/
theorem test_waitKey_none : after 0xF20A State.reset = some State.reset := by decide
/-- KT-10. -/
theorem test_ldFromDt : (after 0xF307 (State.reset.setDt 0x3C)).map (fun t => t.getV 3) = some 0x3C := by decide
/-- KT-11. -/
theorem test_ldDt : (after 0xF315 (regs [(3, 0x3C)])).map (fun t => (t.dt, t.st)) = some (0x3C, 0) := by decide
/-- KT-12. -/
theorem test_ldSt : (after 0xF318 (regs [(3, 5)])).map (fun t => (t.st, t.dt)) = some (5, 0) := by decide
/-- KT-14. -/
theorem test_tick : (State.reset.setSt 2).tickTimers.st = 1 ∧ (State.reset.setSt 2).tickTimers.dt = 0 := by decide

/-! ## The host's calls -/

/-- FT-2: tick, then step: DT = 2 and the same fault. -/
theorem test_fault_after_tick : (hostStep noKeys (State.reset.setDt 3).tickTimers).1.dt = 2 ∧
    (hostStep noKeys (State.reset.setDt 3).tickTimers).2 = .fault (.invalidOpcode 0x200 0x0000) := by decide
/-- A step takes its given turn: two ticks before FX07 (P7, lines 7 and 8). -/
theorem test_step_ticks_first : (nextState (step { (State.reset.setDt 5).placeWordAtPc 0xF007 with
    turns := [⟨2, noKeys⟩] })).map (fun t => (t.getV 0, t.turns)) = some (3, []) := by decide
/-- W10: one byte too many. -/
theorem test_rom_too_large : create Config.glyphTable (some (List.replicate 3585 0)) = .error (.romTooLarge 3585) := by
  simp only [create, List.length_replicate]; rfl

/-! ## Witnesses: states and operands that meet the hypotheses of the statements -/

theorem witness_EncodeOfDecodeIsTheWord : decode 0x8456 = .ok (.shr 4 5) := by decide
theorem witness_DecoderAgreesWithTheOpcodeTable :
    decode 0xF165 = .ok (.loadRegs 1) ∧ wordWellFormed 0xF165 = true ∧ wordWellFormed 0xF166 = false := by decide
theorem witness_AtMostOneRowCoversAWord : Rows.cls ∈ opcodeTable ∧ Rows.cls.covers 0x00E0 = true := by decide
theorem witness_StepRunsTheDecodedInstruction :
    ((atWord 0x8014).pc.toNat ≤ 4094) ∧ decode (atWord 0x8014).wordAtPc = .ok (.addReg 0 1) := by decide
theorem witness_StepRunsTheDecodedInstruction_last_address :
    let s := (withBytes 0xFFE [0x00, 0xE0]).setPc 0xFFE
    s.pc.toNat ≤ 4094 ∧ decode s.wordAtPc = .ok .cls := by decide
theorem witness_HostTurnIsTicksThenSnapshot : (atWord 0x00E0).turns = ⟨0, noKeys⟩ :: [] := by decide
theorem witness_FetchPastTheEndFaults : (State.reset.setPc 4094).pc.toNat ≤ 4094 ∧
    (State.reset.setPc 4095).pc.toNat = 4095 ∧ 4096 ≤ (State.reset.setPc 4096).pc.toNat := by decide
theorem witness_IllegalWordFaults :
    (atWord 0x5121).pc.toNat ≤ 4094 ∧ wordWellFormed (atWord 0x5121).wordAtPc = false := by decide
theorem witness_InstructionsFaultExactlyWhenTheirConditionHolds :
    execFault State.reset .ret = some (.stackUnderflow 0x200) ∧
    execFault { State.reset with sp := 16 } (.call 0) = some (.stackOverflow 0x200) ∧
    execFault (State.reset.setIndex 0xFFE) (.ldBcd 0) = some (.memoryOutOfBounds 0x200 0x1000) ∧
    execFault (State.reset.setIndex 0xFFD) (.ldBcd 0) = none ∧
    execFault (State.reset.setIndex 0xFFFF) (.drw 0 0 0) = none ∧
    execFault (State.reset.setIndex 0xFFF) (.drw 0 0 2) = some (.memoryOutOfBounds 0x200 0x1000) := by decide
theorem witness_FaultsIgnoreInputsTimersAndRegisters :
    resultFault (step (atWord 0x00EE)) = some (.stackUnderflow 0x200) ∧
    ((atWord 0x00EE).setV 3 9).pc = (atWord 0x00EE).pc ∧ ((atWord 0x00EE).setV 3 9).index = (atWord 0x00EE).index ∧
    ((atWord 0x00EE).setV 3 9).sp = (atWord 0x00EE).sp ∧ ((atWord 0x00EE).setV 3 9).mem = (atWord 0x00EE).mem := by decide
theorem witness_FaultsAreAllOrNothing : (hostStep noKeys (atWord 0x00EE)).2 = .fault (.stackUnderflow 0x200) ∧
    (hostStep noKeys (atWord 0x00E0)).2 = .ok := by decide
theorem witness_FaultedCoreMakesNoProgress :
    (hostStep noKeys (atWord 0x00EE)).2 = .fault (.stackUnderflow 0x200) := by decide
theorem witness_steps_that_go_on : isNext (step (atWord 0x8014)) = true ∧
    (∀ x, decode (atWord 0x8014).wordAtPc ≠ .ok (.ldDt x)) ∧ (∀ x, decode (atWord 0x8014).wordAtPc ≠ .ok (.ldSt x)) := by
  decide
theorem witness_DisplayPortIsRowMajor : (63 : Nat) < 64 ∧ (31 : Nat) < 32 := by decide
theorem witness_EveryStepKeepsTheInvariant : (atWord 0x2ABC).Inv ∧ isNext (step (atWord 0x2ABC)) = true :=
  ⟨⟨by decide, by decide, fun _ h => absurd h (Nat.not_lt_zero _)⟩, by decide⟩
theorem witness_OversizedRomIsRejected :
    3584 < (List.replicate 3585 (0 : Byte)).length ∧ (List.replicate 3584 (0 : Byte)).length = 3584 :=
  ⟨by rw [List.length_replicate]; omega, List.length_replicate⟩
theorem witness_CreationLoadsGlyphsAndRom : ([0x60, 0x05] : List Byte).length ≤ 3584 ∧
    (List.replicate 3585 (0 : Byte)).length > 3584 := ⟨by decide, by rw [List.length_replicate]; omega⟩
theorem witness_EveryInstructionKeepsWhatItDoesNotWrite : isNext (exec (.drw 0 1 5) State.reset) = true := by decide
theorem witness_PlainInstructionsAdvanceByTwo :
    plainAdvance (.loadRegs 3) = true ∧ isNext (exec (.loadRegs 3) State.reset) = true := by decide
theorem witness_InstructionsReadOnlyTheirRegisters :
    (∀ r ∈ readRegs (.addReg 1 2), ((regs [(1, 7)]).setV 5 9).getV r = (regs [(1, 7)]).getV r) ∧
    (regs [(1, 7)]).setV 5 9 = { regs [(1, 7)] with v := ((regs [(1, 7)]).setV 5 9).v } ∧
    isNext (exec (.addReg 1 2) (regs [(1, 7)])) = true ∧
    (∀ r ∈ readRegs .ret, ((regs [(1, 7)]).setV 5 9).getV r = (regs [(1, 7)]).getV r) ∧
    resultFault (exec .ret (regs [(1, 7)])) = some (.stackUnderflow 0x200) := by decide
theorem witness_destination_other_than_VF : (14 : Reg) ≠ regVF ∧ (15 : Reg) = regVF := by decide
theorem witness_RegisterCopyCopies : (3 : Reg) = 3 := rfl
theorem witness_RandomDrawsOneByteAndMasksIt :
    { State.reset with randomIn := [0xA7] }.randomIn = 0xA7 :: [] ∧ State.reset.randomIn = [] := by decide
theorem witness_JumpsGoToTheirTargets : 4094 < (State.reset.setPc 0xFFF).pc.toNat := by decide
theorem witness_ImmediateSkipsCompareAndSkip : (regs [(3, 0x2A)]).getV 3 = 0x2A ∧ (regs [(3, 0x2A)]).getV 3 ≠ 0x2B ∧
    4094 < (State.reset.setPc 0x1002).pc.toNat := by decide
theorem witness_RegisterSkipsCompareAndSkip : (regs [(1, 7), (2, 7)]).getV 1 = (regs [(1, 7), (2, 7)]).getV 2 ∧
    (regs [(1, 7)]).getV 1 ≠ (regs [(1, 7)]).getV 2 ∧ (5 : Reg) = 5 := by decide
theorem witness_CallPushesItsAddress :
    { State.reset with sp := 16 }.sp = 16 ∧ { State.reset with sp := 15 }.sp.val < 16 := by decide
theorem witness_ReturnGoesPastTheCall : State.reset.sp = 0 ∧ { State.reset with sp := 1 }.sp.val = (0 : Fin 16).val + 1 ∧
    { State.reset with sp := 16 }.sp.val = (15 : Fin 16).val + 1 := by decide
theorem witness_NestedCallsReturnPastTheirCalls :
    List.replicate 16 ((0x300 : Addr12), (fun s : State => s.setV 1 7)) ≠ [] ∧
    State.reset.sp.val + (List.replicate 16 ((0x300 : Addr12), (fun s : State => s.setV 1 7))).length ≤ 16 ∧
    (∀ c ∈ List.replicate 16 ((0x300 : Addr12), (fun s : State => s.setV 1 7)), ∀ u : State,
      (c.2 u).sp = u.sp ∧ (c.2 u).stack = u.stack) :=
  ⟨by simp, by simp [State.reset], fun c hc u => by rw [List.eq_of_mem_replicate hc]; exact ⟨rfl, rfl⟩⟩
theorem witness_SeventeenthCallOverflows :
    State.reset.sp = 0 ∧ (List.replicate 16 (0x200 : Addr12)).length = 16 := ⟨rfl, rfl⟩
theorem witness_VariantParametersActAsDescribed :
    ((regs [(2, 1)]).setIndex 0xFFFF).index.toNat + (((regs [(2, 1)]).setIndex 0xFFFF).getV 2).toNat > 0xFFFF ∧
    ((regs [(2, 0)]).setIndex 0xFFFF).index.toNat + (((regs [(2, 0)]).setIndex 0xFFFF).getV 2).toNat ≤ 0xFFFF ∧
    ((regs [(2, 16)]).getV 2).toNat ≥ 16 ∧ ((regs [(2, 15)]).getV 2).toNat < 16 ∧
    { State.reset with sp := 15 }.sp = 15 ∧ { State.reset with sp := 14 }.sp < (15 : Fin 17) := by decide
theorem witness_BcdStoresTheDecimalDigits : (State.reset.setIndex 0xFFE).mem.wf = true ∧
    (State.reset.setIndex 0xFFE).index.toNat + 2 > 4095 ∧ (State.reset.setIndex 0xFFD).mem.wf = true ∧
    (State.reset.setIndex 0xFFD).index.toNat + 2 ≤ 4095 := by decide
theorem witness_StoreRegistersWritesV0ToVX : (State.reset.setIndex 0xFF0).mem.wf = true ∧
    (State.reset.setIndex 0xFF0).index.toNat + (15 : Reg).val ≤ 4095 ∧ (State.reset.setIndex 0xFF1).mem.wf = true ∧
    (State.reset.setIndex 0xFF1).index.toNat + (15 : Reg).val > 4095 := by decide
theorem witness_LoadRegistersReadsV0ToVX : (State.reset.setIndex 0xFFF).index.toNat + (0 : Reg).val ≤ 4095 ∧
    (State.reset.setIndex 0xFFF).index.toNat + (1 : Reg).val > 4095 := by decide
theorem witness_LoadAfterStoreRestoresRegisters :
    ((regs [(0, 3)]).setIndex 0x400).mem.wf = true ∧
    (after 0xF255 ((regs [(0, 3)]).setIndex 0x400)).map (fun t => (t.setV 0 9).mem == t.mem && (t.setV 0 9).index == t.index) =
      some true := by decide
theorem witness_StoredBytesAreFetched :
    ((regs [(0, 0x00), (1, 0xE0)]).setIndex 0x400).mem.wf = true ∧ (1 : Reg) ≤ 1 ∧ (1 : Reg).val = (0 : Reg).val + 1 ∧
    (after 0xF155 ((regs [(0, 0x00), (1, 0xE0)]).setIndex 0x400)).map
      (fun t => (t.setPc 0x400).mem == t.mem && (t.setPc 0x400).pc.toNat == 0x400 + (0 : Reg).val) = some true := by decide
theorem witness_DrawXorsTheClippedSprite :
    ((2 : Height).val ≥ 1 ∧ (State.reset.setIndex 0xFFF).index.toNat + (2 : Height).val - 1 > 4095) ∧
    ((0 : Height).val = 0) ∧ ((State.reset.setIndex 0xFFF).index.toNat + (1 : Height).val - 1 ≤ 4095) := by decide
theorem witness_DrawingTwiceRestoresTheGrid :
    (after 0xD011 State.reset).map (fun t => isNext (exec (.drw 0 1 1) t) && t.getV 0 == 0 && t.getV 1 == 0) = some true ∧
    spriteCovers State.reset 0 0 1 3 0 = true ∧ State.reset.display.pixel 3 0 = false := by decide
/-- Glyph 0's first row at column 0, then at column 8: the coverings do not meet. -/
theorem witness_SeparateSpritesDoNotCollide :
    (after 0xD011 State.reset).map (fun t => isNext (exec (.drw 0 1 1) (t.setV 0 8)) &&
      (t.setV 0 8).display == t.display &&
      (List.range 64).all fun px => (List.range 32).all fun py =>
        !State.reset.display.pixel px py && !(spriteCovers State.reset 0 0 1 px py && spriteCovers (t.setV 0 8) 8 0 1 px py)) =
      some true := by decide
theorem witness_KeySkipsFollowTheSnapshot : (15 : Fin 16).val = ((regs [(1, 15)]).getV 1).toNat ∧
    ((regs [(1, 16)]).getV 1).toNat ≥ 16 := by decide
theorem witness_WaitForKeyTakesTheLowest : (∀ k : Fin 16, State.reset.keys[k] = false) ∧
    (State.reset.latchKeys (held [15])).keys[(15 : Fin 16)] = true ∧
    (∀ j : Fin 16, j < 15 → (State.reset.latchKeys (held [15])).keys[j] = false) := by decide

end Sys2Proof.Tests
end

section
/-! Reset and creation (spec 10_state.md R40 to R46; 70_reset_and_hazards.md R300, R301): the two statements of the
state family. -/

namespace Sys2Proof.Machine

/-! ## The state after reset, field by field -/

@[simp] theorem State.getV_reset (r : Reg) : State.reset.getV r = 0 := by
  simp [State.getV, State.reset]

theorem State.reset_stack_getElem (k : Fin 16) : State.reset.stack[k] = 0 := by
  simp [State.reset]

theorem State.pixel_reset (x y : Nat) : State.reset.display.pixel x y = false := Display.pixel_clear x y

/-- Memory after reset lists nothing, so past the glyph table it reads as zero (R46). -/
theorem State.byteAt_reset_of_ge {a : Nat} (h : 80 ≤ a) : State.reset.byteAt a = 0 := by
  have hread : State.reset.byteAt a = Memory.resetByte a := rfl
  rw [hread, Memory.resetByte, dif_neg (by omega)]

/-- Settles O22: the registers, the slots and the pixels by their own rules at reset, the other elements by
definition. -/
theorem resetZeroesRegistersStackTimersAndDisplay : Obligations.ResetZeroesRegistersStackTimersAndDisplay :=
  ⟨State.getV_reset, rfl, rfl, State.reset_stack_getElem, rfl, rfl, fun x y _ _ => State.pixel_reset x y⟩

/-! ## The state `create` makes -/

/-- The state of R300: the reset state with the glyph table and the ROM stored into its memory. -/
def State.created (glyphs : Vector Byte 80) (rom : List Byte) : State :=
  (State.reset.storeBytes 0 glyphs.toList).storeBytes 0x200 rom

/-- A ROM the host could not read gives no state (R302). -/
theorem create_none (glyphs : Vector Byte 80) : create glyphs none = .error .romLoadError := rfl

theorem create_of_length_gt (glyphs : Vector Byte 80) {rom : List Byte} (h : 3584 < rom.length) :
    create glyphs (some rom) = .error (.romTooLarge rom.length) := if_pos h

theorem create_of_length_le (glyphs : Vector Byte 80) {rom : List Byte} (h : rom.length ≤ 3584) :
    create glyphs (some rom) = .ok (State.created glyphs rom) := if_neg (Nat.not_lt.mpr h)

section
variable (glyphs : Vector Byte 80) (rom : List Byte)

@[simp] theorem State.getV_created (r : Reg) : (State.created glyphs rom).getV r = 0 := by
  simp [State.created]

@[simp] theorem State.created_stack : (State.created glyphs rom).stack = State.reset.stack := rfl

@[simp] theorem State.created_display : (State.created glyphs rom).display = State.reset.display := rfl

/-- The glyph table lies inside memory and is stored into a memory in its canonical form. -/
theorem Memory.wf_storeGlyphs : (State.reset.storeBytes 0 glyphs.toList).mem.wf = true :=
  Memory.wf_writeBytes Memory.wf_reset (by simp)

variable {rom} (h : rom.length ≤ 3584)
include h

/-- 3584 bytes from 0x200 on end with the last address (R5), so the load keeps the canonical form. -/
theorem State.created_wf : (State.created glyphs rom).mem.wf = true :=
  Memory.wf_writeBytes (Memory.wf_storeGlyphs glyphs) (by omega)

/-- What an address reads as after creation: the ROM and the glyph table do not meet (R46). -/
theorem State.byteAt_created (a : Nat) :
    (State.created glyphs rom).byteAt a =
      if hr : 0x200 ≤ a ∧ a < 0x200 + rom.length then rom[a - 0x200]'(by omega)
      else if hg : a < 80 then glyphs[a] else 0 := by
  have hrom := State.byteAt_storeBytes _ (Memory.wf_storeGlyphs glyphs) (a := 0x200) (bs := rom) (by omega) a
  have hglyph := State.byteAt_storeBytes State.reset Memory.wf_reset (a := 0) (bs := glyphs.toList) (by simp) a
  rw [State.created, hrom, hglyph]
  by_cases hg : a < 80
  · simp [hg]
  · simp [hg, State.byteAt_reset_of_ge (Nat.not_lt.mp hg)]

theorem State.byteAt_created_glyph (a : Fin 80) : (State.created glyphs rom).byteAt a.val = glyphs[a] := by
  rw [State.byteAt_created glyphs h, dif_neg (by omega), dif_pos a.isLt]; rfl

theorem State.byteAt_created_rom (j : Fin rom.length) : (State.created glyphs rom).byteAt (0x200 + j.val) = rom[j] := by
  rw [State.byteAt_created glyphs h, dif_pos (by omega)]; simp

theorem State.byteAt_created_elsewhere {a : Nat} (hg : 80 ≤ a) (hr : a < 0x200 ∨ 0x200 + rom.length ≤ a) :
    (State.created glyphs rom).byteAt a = 0 := by
  rw [State.byteAt_created glyphs h, dif_neg (by omega), dif_neg (by omega)]

end

/-- Settles O25: `create` refuses as R301 and R302 say and otherwise makes `State.created`, whose memory reads as
`State.byteAt_created` says and whose other elements are those of reset. -/
theorem creationLoadsGlyphsAndRom : Obligations.CreationLoadsGlyphsAndRom := by
  refine ⟨create_none, fun glyphs rom => ⟨create_of_length_gt glyphs, fun h => ?_⟩⟩
  refine ⟨State.created glyphs rom, create_of_length_le glyphs h, State.created_wf glyphs h,
    State.byteAt_created_glyph glyphs h, State.byteAt_created_rom glyphs h,
    fun a hg hr => State.byteAt_created_elsewhere glyphs h hg hr, State.getV_created glyphs rom,
    rfl, rfl, rfl, fun k => ?_, rfl, rfl, fun x y _ _ => ?_⟩
  · rw [State.created_stack, State.reset_stack_getElem]
  · rw [State.created_display, State.pixel_reset]

end Sys2Proof.Machine
end

section
/-! The fetch (spec 40_control_flow.md R111, R112): what it gives inside memory and what a step answers past the end. -/

namespace Sys2Proof.Machine

/-- Inside memory the fetch gives the word at pc (R111, R112). -/
theorem State.fetch_of_fetchable {s : State} (h : s.Fetchable) : s.fetch = .ok s.wordAtPc := by
  rcases s.fetch_cases with ⟨-, hf⟩ | ⟨hpc, -⟩
  · exact hf
  · exact absurd h (Nat.not_le.mpr hpc)

/-- Past the last word of memory every step faults in its fetch, and the host's turn before it does not move pc
(R111, R288). -/
theorem State.nextFetchFaultsPastEnd (s : State) : s.NextFetchFaultsPastEnd := by
  intro hpast
  rcases cycle_cases s.takeTurn with ⟨-, hfault⟩ | ⟨hpc, -⟩
  · exact hfault
  · exact absurd hpc (Nat.not_le.mpr hpast)

/-- Settles O8: the fetch inside memory, and the fault past its end with the lowest address outside, `max pc 4096`, at
pc = 4095 and from pc = 4096 on. -/
theorem fetchPastTheEndFaults : Obligations.FetchPastTheEndFaults := by
  refine fun s => ⟨State.fetch_of_fetchable, fun hpc => ?_, fun hpc => ?_⟩
  · have hfault := s.nextFetchFaultsPastEnd (by omega)
    rwa [Nat.max_eq_right (by omega)] at hfault
  · have hfault := s.nextFetchFaultsPastEnd (by omega)
    rwa [Nat.max_eq_left hpc] at hfault

end Sys2Proof.Machine
end

section
/-! Immediate load (spec 41_register_alu.md R140): the word with operands X and NN, and the frame of an instruction that
writes one register. -/

namespace Sys2Proof

/-- Format XNN as a sum of its fields (R82). -/
theorem ofNat_eq_wordXNN (op : Nibble) (x : Reg) (nn : Byte) :
    BitVec.ofNat 16 (0x1000 * op.toNat + 0x100 * x.val + nn.toNat) = wordXNN op x nn := by
  apply BitVec.eq_of_toNat_eq
  have hop := op.isLt
  have hnn := nn.isLt
  rw [BitVec.toNat_ofNat, wordXNN_toNat]; omega

/-- Family 6 is one instruction, whatever X and NN are (R87). -/
theorem decode_wordXNN_ldImm (x : Reg) (nn : Byte) : decode (wordXNN 0x6 x nn) = .ok (.ldImm x nn) := by
  simp [decode_ok_iff, decodeWord?]

namespace Machine

/-- A register write with the plain advance keeps every other register, every part and the host's side. -/
theorem kept_setV_advance (s : State) (r : Reg) (b : Byte) : Kept s (s.setV r b).advance [r] [] := by
  refine ⟨fun r' hr' => ?_, fun p _ => ?_, rfl, rfl, rfl⟩
  · rw [State.getV_advance, State.getV_setV_other s b (List.ne_of_not_mem_cons hr')]
  · cases p with
    | index | sp | dt | st => rfl
    | stack => exact fun _ => rfl
    | display => exact fun _ _ _ _ => rfl
    | memory => exact fun _ => rfl
    | random => exact ⟨rfl, rfl⟩

theorem exec_ldImm (x : Reg) (nn : Byte) (s : State) : exec (.ldImm x nn) s = .next (s.setV x nn).advance := rfl

/-- Settles O29: the word 6XNN is format XNN with family 6, and the load is one register write with the plain advance,
for X = F as for any other register. -/
theorem loadImmediateSetsTheRegister : Obligations.LoadImmediateSetsTheRegister := by
  refine fun s x nn => ⟨?_, (s.setV x nn).advance, exec_ldImm x nn s, ?_, rfl, kept_setV_advance s x nn⟩
  · have hword : BitVec.ofNat 16 (0x6000 + 0x100 * x.val + nn.toNat) = wordXNN 0x6 x nn := ofNat_eq_wordXNN 0x6 x nn
    rw [hword, decode_wordXNN_ldImm]
  · rw [State.getV_advance, State.getV_setV_same]

end Machine
end Sys2Proof
end

section
/-! The host's calls (spec 60_exceptions.md R266, R267, R284, R286): a fault reports the pc of its step, a `step()` answers
what its cycle does, and what the tick and the display port give. -/

namespace Sys2Proof.Machine

/-! ## A fault reports the pc of its step -/

theorem guardRange_fault_reportedPc {s t : State} {a n : Nat} {f : Fault} (h : guardRange s a n t = .fault f) :
    f.reportedPc = s.pc := by
  rcases guardRange_cases s a n t with ⟨-, hg⟩ | ⟨-, hg⟩
  · cases hg.symm.trans h
  · cases hg.symm.trans h; rfl

theorem execRet_fault_reportedPc {s : State} {f : Fault} (h : execRet s = .fault f) : f.reportedPc = s.pc := by
  rcases s.popReturn_cases with ⟨-, t, hp, -⟩ | ⟨-, hp⟩
  · rw [execRet, hp] at h; cases h
  · rw [execRet, hp] at h; cases h; rfl

theorem execCall_fault_reportedPc {nnn : Addr12} {s : State} {f : Fault} (h : execCall nnn s = .fault f) :
    f.reportedPc = s.pc := by
  rcases s.pushReturn_cases Config.stackDepth with ⟨-, t, hp, -⟩ | ⟨-, hp⟩
  · rw [execCall, hp] at h; cases h
  · rw [execCall, hp] at h; cases h; rfl

/-- Only the stack pair and the four guarded accesses can fault; every other instruction goes on by definition
(R261, R262, R263, R267). -/
theorem exec_fault_reportedPc {i : Instr} {s : State} {f : Fault} (h : exec i s = .fault f) : f.reportedPc = s.pc := by
  cases i with
  | ret => exact execRet_fault_reportedPc h
  | call nnn => exact execCall_fault_reportedPc h
  | drw | ldBcd | storeRegs | loadRegs => exact guardRange_fault_reportedPc h
  | _ => cases h

theorem cycle_fault_reportedPc {s : State} {f : Fault} (h : cycle s = .fault f) : f.reportedPc = s.pc := by
  rcases cycle_cases s with ⟨-, hc⟩ | ⟨-, ⟨i, -, hc⟩ | ⟨-, hc⟩⟩
  · cases hc.symm.trans h; rfl
  · exact exec_fault_reportedPc (hc.symm.trans h)
  · cases hc.symm.trans h; rfl

/-! ## `step()` -/

/-- A cycle that goes on ran the instruction at pc (R110). -/
theorem cycle_next {s t : State} (h : cycle s = .next t) : ∃ i, decode s.wordAtPc = .ok i ∧ exec i s = .next t := by
  rcases cycle_cases s with ⟨-, hc⟩ | ⟨-, ⟨i, hi, hc⟩ | ⟨-, hc⟩⟩
  · cases hc.symm.trans h
  · exact ⟨i, hi, hc.symm.trans h⟩
  · cases hc.symm.trans h

/-- Everything a `step()` can answer: what its cycle does under the snapshot (R260, R266). -/
theorem hostStep_cases (keys : Keys) (s : State) :
    (∃ t, cycle (s.latchKeys keys) = .next t ∧ hostStep keys s = (t, .ok)) ∨
    (∃ f, cycle (s.latchKeys keys) = .fault f ∧ hostStep keys s = (s, .fault f)) ∨
    (∃ r, cycle (s.latchKeys keys) = .refused r ∧ hostStep keys s = (s, .refused r)) := by
  cases hc : cycle (s.latchKeys keys) with
  | next t => exact .inl ⟨t, rfl, by rw [hostStep, hc]⟩
  | fault f => exact .inr (.inl ⟨f, rfl, by rw [hostStep, hc]⟩)
  | refused r => exact .inr (.inr ⟨r, rfl, by rw [hostStep, hc]⟩)

/-- Settles O13: by what the step's cycle did. The snapshot moves neither pc nor the word at pc. -/
theorem faultsAreAllOrNothing : Obligations.FaultsAreAllOrNothing := by
  intro s keys
  rcases hostStep_cases keys s with ⟨t, hc, hs⟩ | ⟨f, hc, hs⟩ | ⟨r, -, hs⟩ <;> rw [hs]
  · exact ⟨nofun, fun _ => cycle_next hc⟩
  · refine ⟨fun g hg => ?_, nofun⟩
    cases hg
    exact ⟨rfl, (cycle_fault_reportedPc hc).trans (s.latchKeys_pc keys)⟩
  · exact ⟨nofun, nofun⟩

/-! ## `tick_timers()` -/

/-- The tick touches the two counters alone (R284). -/
theorem kept_tickTimers (s : State) : Kept s s.tickTimers [] [.dt, .st] := by
  refine ⟨fun r _ => s.getV_tickTimers r, fun p hp => ?_, rfl, rfl, rfl⟩
  cases p with
  | dt | st => exact absurd hp (by decide)
  | index | sp => rfl
  | stack => exact fun _ => rfl
  | display => exact fun _ _ _ _ => rfl
  | memory => exact fun _ => rfl
  | random => exact ⟨rfl, rfl⟩

theorem tickByte_toNat_eq_ite (b : Byte) : (tickByte b).toNat = if b.toNat > 0 then b.toNat - 1 else 0 := by
  rw [tickByte_toNat]; split <;> omega

/-- Settles O16: each counter is one `tickByte`, and the separate ticks of R284 meet in the joint one. -/
theorem tickLowersBothTimersToZero : Obligations.TickLowersBothTimersToZero := fun s =>
  ⟨rfl, tickByte_toNat_eq_ite s.dt, tickByte_toNat_eq_ite s.st, rfl, kept_tickTimers s, rfl, rfl⟩

/-! ## The display read port -/

/-- Settles O18: column and row are the remainder and the quotient of the row-major index by the row's length. -/
theorem displayPortIsRowMajor : Obligations.DisplayPortIsRowMajor := by
  intro s x y hx _
  have hcol : (x + y * 64) % 64 = x := by omega
  have hrow : (x + y * 64) / 64 = y := by omega
  rw [State.displayCell, hcol, hrow]

end Sys2Proof.Machine
end

section
/-! The size check of the load (spec 70_reset_and_hazards.md R301). -/

namespace Sys2Proof.Machine

/-- Settles O24: 3584 is the last length `create` takes, and there the state is `State.created`, whose bytes from 0x200
on are the ROM's. -/
theorem oversizedRomIsRejected : Obligations.OversizedRomIsRejected := by
  refine fun glyphs rom => ⟨create_of_length_gt glyphs, fun hlen => ?_⟩
  have hle : rom.length ≤ 3584 := hlen.le
  exact ⟨State.created glyphs rom, create_of_length_le glyphs hle, State.byteAt_created_rom glyphs hle⟩

end Sys2Proof.Machine
end

section
/-! The encoding (spec 30_encoding.md R81 to R88): decoder and encoder are inverse to each other, and the decoder
accepts exactly what the opcode table covers, each word as the instruction of the one row that covers it. -/

namespace Sys2Proof

/-! ## The round trip -/

/-- Settles O2: a format's builder keeps each field, so the family nibble and the sub-operation select the instruction's
own arm, and the operands come back as they were. -/
theorem decodeOfEncodeIsTheInstruction : Obligations.DecodeOfEncodeIsTheInstruction := by
  intro i
  rw [decode_ok_iff]
  cases i with
  | cls | ret => decide
  | seReg | sneReg => simp [encode, decodeWord?]
  | ldReg | orReg | andReg | xorReg | addReg | subReg | shr | subn | shl => simp [encode, decodeWord?, decodeAlu]
  | skp | sknp => simp [encode, decodeWord?, decodeKey]
  | ldFromDt | waitKey | ldDt | ldSt | addI | ldFont | ldBcd | storeRegs | loadRegs =>
    simp [encode, decodeWord?, decodeMisc]
  | _ => simp [encode, decodeWord?]

/-! ## A word that decodes is the encoding of what it decodes to -/

theorem encode_of_decodeFixed {w : Word} {i : Instr} (h : decodeFixed w = some i) : encode i = w := by
  unfold decodeFixed at h
  split at h <;> cases h <;> rfl

theorem encode_of_decodeAlu {x y : Reg} {n : Nibble} {i : Instr} (h : decodeAlu x y n = some i) :
    encode i = wordXYN 0x8 x y n := by
  unfold decodeAlu at h
  split at h <;> cases h <;> rfl

theorem encode_of_decodeKey {x : Reg} {nn : Byte} {i : Instr} (h : decodeKey x nn = some i) :
    encode i = wordXNN 0xE x nn := by
  unfold decodeKey at h
  split at h <;> cases h <;> rfl

theorem encode_of_decodeMisc {x : Reg} {nn : Byte} {i : Instr} (h : decodeMisc x nn = some i) :
    encode i = wordXNN 0xF x nn := by
  unfold decodeMisc at h
  split at h <;> cases h <;> rfl

section
variable {w : Word} {op : Nibble} (h : fieldOp w = op)
include h

theorem wordNNN_of_fieldOp : wordNNN op (fieldNNN w) = w := h ▸ wordNNN_fields w

theorem wordXNN_of_fieldOp : wordXNN op (fieldX w) (fieldNN w) = w := h ▸ wordXNN_fields w

theorem wordXYN_of_fieldOp : wordXYN op (fieldX w) (fieldY w) (fieldN w) = w := h ▸ wordXYN_fields w

theorem wordXYN_of_fieldOp_fieldN {n : Nibble} (hn : fieldN w = n) : wordXYN op (fieldX w) (fieldY w) n = w :=
  hn ▸ wordXYN_of_fieldOp h

end

/-- The cases are the decoder's families, in its order. -/
theorem encode_of_decodeWord {w : Word} {i : Instr} (h : decodeWord? w = some i) : encode i = w := by
  unfold decodeWord? at h
  split at h
  case h_1 => exact encode_of_decodeFixed h
  case h_2 hop | h_3 hop | h_11 hop | h_12 hop => cases h; exact wordNNN_of_fieldOp hop
  case h_4 hop | h_5 hop | h_7 hop | h_8 hop | h_13 hop => cases h; exact wordXNN_of_fieldOp hop
  case h_6 hop | h_10 hop =>
    split at h
    next hn => cases h; exact wordXYN_of_fieldOp_fieldN hop hn
    next => cases h
  case h_9 hop => exact (encode_of_decodeAlu h).trans (wordXYN_of_fieldOp hop)
  case h_14 hop => cases h; exact wordXYN_of_fieldOp hop
  case h_15 hop => exact (encode_of_decodeKey h).trans (wordXNN_of_fieldOp hop)
  case h_16 hop => exact (encode_of_decodeMisc h).trans (wordXNN_of_fieldOp hop)
  case h_17 => cases h

/-- Settles O3, through `encode_of_decodeWord`. -/
theorem encodeOfDecodeIsTheWord : Obligations.EncodeOfDecodeIsTheWord := fun w i h =>
  encode_of_decodeWord ((decode_ok_iff w i).mp h)

/-! ## The opcode table -/

/-! A word covered by a row is the word of the row's format with the row's fixed fields and its own operands. -/

section
variable {name : String} {op n : Nibble} {nn : Byte} {w : Word}

theorem fieldOp_of_covers (h : (OpcodeRow.mk name 0xF000 (wordNNN op 0)).covers w = true) : fieldOp w = op := by
  have hw : w &&& 0xF000#16 = wordNNN op 0 := by simpa [OpcodeRow.covers] using h
  rw [and_maskOp] at hw
  simpa using congrArg fieldOp hw

theorem wordNNN_of_covers (h : (OpcodeRow.mk name 0xF000 (wordNNN op 0)).covers w = true) :
    wordNNN op (fieldNNN w) = w := wordNNN_of_fieldOp (fieldOp_of_covers h)

theorem wordXNN_of_covers (h : (OpcodeRow.mk name 0xF000 (wordNNN op 0)).covers w = true) :
    wordXNN op (fieldX w) (fieldNN w) = w := wordXNN_of_fieldOp (fieldOp_of_covers h)

theorem wordXYN_of_covers (h : (OpcodeRow.mk name 0xF000 (wordNNN op 0)).covers w = true) :
    wordXYN op (fieldX w) (fieldY w) (fieldN w) = w := wordXYN_of_fieldOp (fieldOp_of_covers h)

theorem wordXY_of_covers (h : (OpcodeRow.mk name 0xF00F (wordXYN op 0 0 n)).covers w = true) :
    wordXYN op (fieldX w) (fieldY w) n = w := by
  have hw : w &&& 0xF00F#16 = wordXYN op 0 0 n := by simpa [OpcodeRow.covers] using h
  rw [and_maskOpN] at hw
  exact wordXYN_of_fieldOp_fieldN (by simpa using congrArg fieldOp hw) (by simpa using congrArg fieldN hw)

theorem wordX_of_covers (h : (OpcodeRow.mk name 0xF0FF (wordXNN op 0 nn)).covers w = true) :
    wordXNN op (fieldX w) nn = w := by
  have hw : w &&& 0xF0FF#16 = wordXNN op 0 nn := by simpa [OpcodeRow.covers] using h
  rw [and_maskOpNN] at hw
  have hop : fieldOp w = op := by simpa using congrArg fieldOp hw
  have hnn : fieldNN w = nn := by simpa using congrArg fieldNN hw
  rw [← hnn, wordXNN_of_fieldOp hop]

theorem word_of_covers {bits : Word} (h : (OpcodeRow.mk name 0xFFFF bits).covers w = true) : bits = w := by
  have hw : w &&& 0xFFFF#16 = bits := by simpa [OpcodeRow.covers] using h
  rw [← hw, and_maskAll]

end

/-- The word decodes to an instruction of the row. -/
def DecodesInRow (w : Word) (r : OpcodeRow) : Prop := ∃ i, decode w = .ok i ∧ i.row = r

theorem decodesInRow_of_encode {w : Word} (i : Instr) (h : encode i = w) : DecodesInRow w i.row :=
  ⟨i, h ▸ decodeOfEncodeIsTheInstruction i, rfl⟩

/-- One case for each row of R87, in its order: the word is the encoding of the row's instruction with the operands that
stand in its fields. -/
theorem decodesInRow_of_covers {w : Word} {r : OpcodeRow} (hr : r ∈ opcodeTable) (h : r.covers w = true) :
    DecodesInRow w r := by
  simp only [opcodeTable, List.cons_append, List.nil_append, List.mem_cons, List.not_mem_nil, or_false] at hr
  obtain rfl | rfl | rfl | rfl | rfl | rfl | rfl | rfl | rfl | rfl | rfl | rfl | rfl | rfl | rfl | rfl | rfl | rfl |
    rfl | rfl | rfl | rfl | rfl | rfl | rfl | rfl | rfl | rfl | rfl | rfl | rfl | rfl | rfl | rfl := hr
  exacts [
    decodesInRow_of_encode .cls (word_of_covers h),
    decodesInRow_of_encode .ret (word_of_covers h),
    decodesInRow_of_encode (.jp (fieldNNN w)) (wordNNN_of_covers h),
    decodesInRow_of_encode (.call (fieldNNN w)) (wordNNN_of_covers h),
    decodesInRow_of_encode (.seImm (fieldX w) (fieldNN w)) (wordXNN_of_covers h),
    decodesInRow_of_encode (.sneImm (fieldX w) (fieldNN w)) (wordXNN_of_covers h),
    decodesInRow_of_encode (.seReg (fieldX w) (fieldY w)) (wordXY_of_covers h),
    decodesInRow_of_encode (.ldImm (fieldX w) (fieldNN w)) (wordXNN_of_covers h),
    decodesInRow_of_encode (.addImm (fieldX w) (fieldNN w)) (wordXNN_of_covers h),
    decodesInRow_of_encode (.ldReg (fieldX w) (fieldY w)) (wordXY_of_covers h),
    decodesInRow_of_encode (.orReg (fieldX w) (fieldY w)) (wordXY_of_covers h),
    decodesInRow_of_encode (.andReg (fieldX w) (fieldY w)) (wordXY_of_covers h),
    decodesInRow_of_encode (.xorReg (fieldX w) (fieldY w)) (wordXY_of_covers h),
    decodesInRow_of_encode (.addReg (fieldX w) (fieldY w)) (wordXY_of_covers h),
    decodesInRow_of_encode (.subReg (fieldX w) (fieldY w)) (wordXY_of_covers h),
    decodesInRow_of_encode (.shr (fieldX w) (fieldY w)) (wordXY_of_covers h),
    decodesInRow_of_encode (.subn (fieldX w) (fieldY w)) (wordXY_of_covers h),
    decodesInRow_of_encode (.shl (fieldX w) (fieldY w)) (wordXY_of_covers h),
    decodesInRow_of_encode (.sneReg (fieldX w) (fieldY w)) (wordXY_of_covers h),
    decodesInRow_of_encode (.ldI (fieldNNN w)) (wordNNN_of_covers h),
    decodesInRow_of_encode (.jpV0 (fieldNNN w)) (wordNNN_of_covers h),
    decodesInRow_of_encode (.rnd (fieldX w) (fieldNN w)) (wordXNN_of_covers h),
    decodesInRow_of_encode (.drw (fieldX w) (fieldY w) (fieldN w).toFin) (wordXYN_of_covers h),
    decodesInRow_of_encode (.skp (fieldX w)) (wordX_of_covers h),
    decodesInRow_of_encode (.sknp (fieldX w)) (wordX_of_covers h),
    decodesInRow_of_encode (.ldFromDt (fieldX w)) (wordX_of_covers h),
    decodesInRow_of_encode (.waitKey (fieldX w)) (wordX_of_covers h),
    decodesInRow_of_encode (.ldDt (fieldX w)) (wordX_of_covers h),
    decodesInRow_of_encode (.ldSt (fieldX w)) (wordX_of_covers h),
    decodesInRow_of_encode (.addI (fieldX w)) (wordX_of_covers h),
    decodesInRow_of_encode (.ldFont (fieldX w)) (wordX_of_covers h),
    decodesInRow_of_encode (.ldBcd (fieldX w)) (wordX_of_covers h),
    decodesInRow_of_encode (.storeRegs (fieldX w)) (wordX_of_covers h),
    decodesInRow_of_encode (.loadRegs (fieldX w)) (wordX_of_covers h)]

/-- The other direction, from the per-instruction family `TableRow`. -/
theorem row_covers_encode (i : Instr) : Laws.TableRow.Statement i := by
  cases i with
  | cls => exact Laws.TableRow.cls
  | ret => exact Laws.TableRow.ret
  | jp nnn => exact Laws.TableRow.jp nnn
  | call nnn => exact Laws.TableRow.call nnn
  | seImm x nn => exact Laws.TableRow.seImm x nn
  | sneImm x nn => exact Laws.TableRow.sneImm x nn
  | seReg x y => exact Laws.TableRow.seReg x y
  | ldImm x nn => exact Laws.TableRow.ldImm x nn
  | addImm x nn => exact Laws.TableRow.addImm x nn
  | ldReg x y => exact Laws.TableRow.ldReg x y
  | orReg x y => exact Laws.TableRow.orReg x y
  | andReg x y => exact Laws.TableRow.andReg x y
  | xorReg x y => exact Laws.TableRow.xorReg x y
  | addReg x y => exact Laws.TableRow.addReg x y
  | subReg x y => exact Laws.TableRow.subReg x y
  | shr x y => exact Laws.TableRow.shr x y
  | subn x y => exact Laws.TableRow.subn x y
  | shl x y => exact Laws.TableRow.shl x y
  | sneReg x y => exact Laws.TableRow.sneReg x y
  | ldI nnn => exact Laws.TableRow.ldI nnn
  | jpV0 nnn => exact Laws.TableRow.jpV0 nnn
  | rnd x nn => exact Laws.TableRow.rnd x nn
  | drw x y n => exact Laws.TableRow.drw x y n
  | skp x => exact Laws.TableRow.skp x
  | sknp x => exact Laws.TableRow.sknp x
  | ldFromDt x => exact Laws.TableRow.ldFromDt x
  | waitKey x => exact Laws.TableRow.waitKey x
  | ldDt x => exact Laws.TableRow.ldDt x
  | ldSt x => exact Laws.TableRow.ldSt x
  | addI x => exact Laws.TableRow.addI x
  | ldFont x => exact Laws.TableRow.ldFont x
  | ldBcd x => exact Laws.TableRow.ldBcd x
  | storeRegs x => exact Laws.TableRow.storeRegs x
  | loadRegs x => exact Laws.TableRow.loadRegs x

/-- Some row covers a word exactly when the word decodes (R87, R88). -/
theorem wordWellFormed_iff (w : Word) : wordWellFormed w = true ↔ ∃ i, decode w = .ok i := by
  simp only [wordWellFormed, List.any_eq_true]
  constructor
  · rintro ⟨r, hr, hcov⟩
    obtain ⟨i, hi, -⟩ := decodesInRow_of_covers hr hcov
    exact ⟨i, hi⟩
  · rintro ⟨i, hi⟩
    obtain ⟨hmem, hcov⟩ := row_covers_encode i
    exact ⟨i.row, hmem, encodeOfDecodeIsTheWord w i hi ▸ hcov⟩

/-- What the decoder answers to a word that no row covers (R88). -/
theorem decode_of_not_wordWellFormed {w : Word} (h : wordWellFormed w = false) :
    decode w = .error (.invalidOpcode w) := by
  cases hd : decode w with
  | ok i => rw [(wordWellFormed_iff w).mpr ⟨i, hd⟩] at h; cases h
  | error e => rw [decode_error w e hd]

/-- Settles O4: a word that decodes is its instruction's encoding, which the instruction's row covers. -/
theorem decoderAgreesWithTheOpcodeTable : Obligations.DecoderAgreesWithTheOpcodeTable := by
  refine ⟨fun w i hi => ?_, fun w => (wordWellFormed_iff w).mp, fun w => decode_of_not_wordWellFormed⟩
  obtain ⟨hmem, hcov⟩ := row_covers_encode i
  exact ⟨hmem, encodeOfDecodeIsTheWord w i hi ▸ hcov⟩

/-- Settles O5: both rows are the row of the one instruction the word decodes to. -/
theorem atMostOneRowCoversAWord : Obligations.AtMostOneRowCoversAWord := by
  intro w r r' hr hr' hcov hcov'
  obtain ⟨i, hi, rfl⟩ := decodesInRow_of_covers hr hcov
  obtain ⟨i', hi', rfl⟩ := decodesInRow_of_covers hr' hcov'
  cases hi.symm.trans hi'
  rfl

/-- Settles O1: each word decodes as it stands. -/
theorem writtenOutWordsDecode : Obligations.WrittenOutWordsDecode := by
  unfold Obligations.WrittenOutWordsDecode
  decide

/-- An encoding clause: the number is the instruction's word. -/
theorem decode_ofNat {i : Instr} {k : Nat} (h : k = (encode i).toNat) : decode (BitVec.ofNat 16 k) = .ok i := by
  rw [h, BitVec.ofNat_toNat, BitVec.setWidth_eq]
  exact decodeOfEncodeIsTheInstruction i

end Sys2Proof
end

section
/-! When an instruction goes on (spec 60_exceptions.md R261 to R263): its own fault condition decides. -/

namespace Sys2Proof.Machine

/-! ## The guarded accesses -/

section
variable {s t u : State} {a n : Nat} {f : Fault}

theorem indexedFault_of_gt (hn : 1 ≤ n) (h : 4096 < s.index.toNat + n) :
    indexedFault s n = some (.memoryOutOfBounds s.pc (max s.index.toNat 4096)) :=
  if_pos ⟨hn, by omega⟩

theorem indexedFault_of_le (h : n = 0 ∨ s.index.toNat + n ≤ 4096) : indexedFault s n = none :=
  if_neg (by omega)

theorem guardRange_of_le (h : n = 0 ∨ a + n ≤ 4096) : guardRange s a n t = .next t := by
  rw [guardRange, (rangeFault_none_iff a n).mpr h]

/-! The spec's fault condition for an access from I on is the bounds check of the model. -/

theorem guardRange_of_indexedFault_some (h : indexedFault s n = some f) :
    guardRange s (s.effAddr 0) n t = .fault f := by
  rcases guardRange_cases s (s.effAddr 0) n t with ⟨hin, -⟩ | ⟨⟨hn, hout⟩, hg⟩
  · cases (indexedFault_of_le hin).symm.trans h
  · cases (indexedFault_of_gt (Nat.one_le_iff_ne_zero.mpr hn) hout).symm.trans h; exact hg

theorem guardRange_of_indexedFault_none (h : indexedFault s n = none) :
    guardRange s (s.effAddr 0) n t = .next t := by
  rcases guardRange_cases s (s.effAddr 0) n t with ⟨-, hg⟩ | ⟨⟨hn, hout⟩, -⟩
  · exact hg
  · cases (indexedFault_of_gt (Nat.one_le_iff_ne_zero.mpr hn) hout).symm.trans h

/-- A guarded access that goes on ends in the state it was given, and lay inside memory. -/
theorem guardRange_next (h : guardRange s a n t = .next u) : u = t ∧ (n = 0 ∨ a + n ≤ 4096) := by
  rcases guardRange_cases s a n t with ⟨hin, hg⟩ | ⟨-, hg⟩
  · cases hg.symm.trans h; exact ⟨rfl, hin⟩
  · cases hg.symm.trans h

end

/-! ## The call stack -/

theorem exec_ret_of_sp_zero {s : State} (h : s.sp = 0) : exec .ret s = .fault (.stackUnderflow s.pc) := by
  rcases s.popReturn_cases with ⟨hsp, -⟩ | ⟨-, hp⟩
  · exact absurd (congrArg Fin.val h) hsp
  · have hexec : exec .ret s = execRet s := rfl
    rw [hexec, execRet, hp]; rfl

/-- RET with a live return address: it goes past the CALL that pushed the address (R115). -/
theorem exec_ret_of_sp_ne_zero {s : State} (h : s.sp.val ≠ 0) :
    exec .ret s = .next { s with sp := ⟨s.sp.val - 1, by omega⟩, pc := s.stack[s.sp.val - 1] + 2 } := by
  rcases s.popReturn_cases with ⟨-, t, hp, rfl⟩ | ⟨hsp, -⟩
  · have hexec : exec .ret s = execRet s := rfl
    rw [hexec, execRet, hp]; rfl
  · exact absurd hsp h

theorem exec_call_of_sp_full {s : State} {nnn : Addr12} (h : s.sp = 16) :
    exec (.call nnn) s = .fault (.stackOverflow s.pc) := by
  have hexec : exec (.call nnn) s = execCall nnn s := rfl
  rcases s.pushReturn_cases Config.stackDepth with ⟨hsp, -⟩ | ⟨-, hp⟩
  · rw [h] at hsp; exact absurd hsp (by decide)
  · rw [hexec, execCall, hp]; rfl

/-- CALL with room for a return address: it pushes its own address and jumps (R117). -/
theorem exec_call_of_sp_lt {s : State} {nnn : Addr12} (h : s.sp.val < 16) :
    exec (.call nnn) s = .next { s with
      stack := s.stack.set s.sp.val s.pc, sp := ⟨s.sp.val + 1, by omega⟩, pc := zextAddr nnn } := by
  have hexec : exec (.call nnn) s = execCall nnn s := rfl
  rcases s.pushReturn_cases Config.stackDepth with ⟨_, t, hp, rfl⟩ | ⟨hsp, -⟩
  · rw [hexec, execCall, hp]; rfl
  · have hdepth : Config.stackDepth.val = 16 := rfl
    omega

theorem exec_ret_next {s t : State} (h : exec .ret s = .next t) :
    ∃ _ : s.sp.val ≠ 0, t = { s with sp := ⟨s.sp.val - 1, by omega⟩, pc := s.stack[s.sp.val - 1] + 2 } := by
  by_cases hsp : s.sp.val = 0
  · cases (exec_ret_of_sp_zero (Fin.ext hsp)).symm.trans h
  · cases (exec_ret_of_sp_ne_zero hsp).symm.trans h; exact ⟨hsp, rfl⟩

theorem exec_call_next {s t : State} {nnn : Addr12} (h : exec (.call nnn) s = .next t) :
    ∃ _ : s.sp.val < 16, t = { s with
      stack := s.stack.set s.sp.val s.pc, sp := ⟨s.sp.val + 1, by omega⟩, pc := zextAddr nnn } := by
  by_cases hsp : s.sp.val < 16
  · cases (exec_call_of_sp_lt hsp).symm.trans h; exact ⟨hsp, rfl⟩
  · have hfull : s.sp = 16 := Fin.ext (by have := s.sp.isLt; simp; omega)
    cases (exec_call_of_sp_full hfull).symm.trans h

/-! ## Every instruction -/

theorem exec_of_execFault_some {i : Instr} {s : State} {f : Fault} (h : execFault s i = some f) :
    exec i s = .fault f := by
  cases i with
  | ret =>
    by_cases hsp : s.sp = 0
    · rw [execFault, if_pos hsp] at h; cases h; exact exec_ret_of_sp_zero hsp
    · rw [execFault, if_neg hsp] at h; cases h
  | call nnn =>
    by_cases hsp : s.sp = 16
    · rw [execFault, if_pos hsp] at h; cases h; exact exec_call_of_sp_full hsp
    · rw [execFault, if_neg hsp] at h; cases h
  | drw | ldBcd | storeRegs | loadRegs => exact guardRange_of_indexedFault_some h
  | _ => cases h

theorem exec_of_execFault_none {i : Instr} {s : State} (h : execFault s i = none) : ∃ t, exec i s = .next t := by
  cases i with
  | ret =>
    by_cases hsp : s.sp.val = 0
    · have hempty : s.sp = 0 := Fin.ext hsp
      rw [execFault, if_pos hempty] at h; cases h
    · exact ⟨_, exec_ret_of_sp_ne_zero hsp⟩
  | call nnn =>
    by_cases hsp : s.sp.val < 16
    · exact ⟨_, exec_call_of_sp_lt hsp⟩
    · have hfull : s.sp = 16 := Fin.ext (by have := s.sp.isLt; simp; omega)
      rw [execFault, if_pos hfull] at h; cases h
  | drw | ldBcd | storeRegs | loadRegs => exact ⟨_, guardRange_of_indexedFault_none h⟩
  | _ => exact ⟨_, rfl⟩

/-- Settles O10: the stack pair by its own rules, the guarded accesses by the bounds check; every other instruction goes
on by definition. -/
theorem instructionsFaultExactlyWhenTheirConditionHolds :
    Obligations.InstructionsFaultExactlyWhenTheirConditionHolds := fun _ _ =>
  ⟨fun _ => exec_of_execFault_some, exec_of_execFault_none⟩

theorem exec_fault_iff {i : Instr} {s : State} {f : Fault} : exec i s = .fault f ↔ execFault s i = some f := by
  refine ⟨fun h => ?_, exec_of_execFault_some⟩
  cases hf : execFault s i with
  | some g => cases (exec_of_execFault_some hf).symm.trans h; rfl
  | none =>
    obtain ⟨t, ht⟩ := exec_of_execFault_none hf
    cases ht.symm.trans h

/-- No instruction is refused. -/
theorem exec_next_or_fault (i : Instr) (s : State) : (∃ t, exec i s = .next t) ∨ (∃ f, exec i s = .fault f) := by
  cases hf : execFault s i with
  | some f => exact .inr ⟨f, exec_of_execFault_some hf⟩
  | none => exact .inl (exec_of_execFault_none hf)

/-! ## A whole cycle -/

theorem cycle_next_or_fault (s : State) : (∃ t, cycle s = .next t) ∨ (∃ f, cycle s = .fault f) := by
  rcases cycle_cases s with ⟨-, hc⟩ | ⟨-, ⟨i, -, hc⟩ | ⟨-, hc⟩⟩
  · exact .inr ⟨_, hc⟩
  · rw [hc]; exact exec_next_or_fault i s
  · exact .inr ⟨_, hc⟩

/-- Settles O11: the host's turn before the cycle does not move pc. -/
theorem stepsRunOrFaultWithTheirPc : Obligations.StepsRunOrFaultWithTheirPc := by
  intro s
  rcases cycle_next_or_fault s.takeTurn with ht | ⟨f, hf⟩
  · exact .inl ht
  · exact .inr ⟨f, hf, (cycle_fault_reportedPc hf).trans s.takeTurn_pc⟩

/-- At a fetchable pc the cycle runs the instruction that the word at pc decodes to (R110). -/
theorem cycle_of_decode {s : State} {i : Instr} (hpc : s.Fetchable) (hi : decode s.wordAtPc = .ok i) :
    cycle s = exec i s := by
  rw [cycle, State.fetch_of_fetchable hpc]
  simp only [orRaise, State.decodeFetched, hi]

theorem cycle_of_illegal {s : State} (hpc : s.Fetchable) (hi : wordWellFormed s.wordAtPc = false) :
    cycle s = .fault (.invalidOpcode s.pc s.wordAtPc) := by
  rw [cycle, State.fetch_of_fetchable hpc]
  simp only [orRaise, State.decodeFetched, decode_of_not_wordWellFormed hi, raise]

/-- Settles O6: the host's turn moves neither pc nor the bytes there. -/
theorem stepRunsTheDecodedInstruction : Obligations.StepRunsTheDecodedInstruction := fun s _ hpc hi =>
  cycle_of_decode (s := s.takeTurn) hpc hi

/-- Settles O9, as O6. -/
theorem illegalWordFaults : Obligations.IllegalWordFaults := fun s hpc hi =>
  cycle_of_illegal (s := s.takeTurn) hpc hi

/-! ## What a fault depends on -/

/-- Two states that agree on what a fault depends on: pc, I, sp and memory (R273). -/
def SameFaultInputs (s u : State) : Prop := u.pc = s.pc ∧ u.index = s.index ∧ u.sp = s.sp ∧ u.mem = s.mem

theorem SameFaultInputs.execFault_eq {s u : State} (h : SameFaultInputs s u) (i : Instr) :
    execFault u i = execFault s i := by
  obtain ⟨hpc, hindex, hsp, -⟩ := h
  cases i <;> simp only [execFault, indexedFault, hpc, hindex, hsp]

theorem SameFaultInputs.cycle_fault {s u : State} (h : SameFaultInputs s u) {f : Fault} (hf : cycle s = .fault f) :
    cycle u = .fault f := by
  have hexec (i : Instr) (hi : exec i s = .fault f) : exec i u = .fault f :=
    exec_fault_iff.mpr ((h.execFault_eq i).trans (exec_fault_iff.mp hi))
  obtain ⟨hpc, -, -, hmem⟩ := h
  have hfetch : u.fetch = s.fetch := by
    simp only [State.fetch, State.memRead2, State.byteAt_of_mem_eq hmem, hpc]
  have hdecode (w : Word) : u.decodeFetched w = s.decodeFetched w := by simp only [State.decodeFetched, hpc]
  unfold cycle at hf ⊢
  rw [hfetch]
  cases hw : s.fetch with
  | error g => rw [hw] at hf; exact hf
  | ok w =>
    simp only [hw, orRaise] at hf
    simp only [orRaise, hdecode]
    cases hi : s.decodeFetched w with
    | error g => rw [hi] at hf; exact hf
    | ok i => rw [hi] at hf; exact hexec i hf

/-- Settles O12: the host's turn leaves pc, I, sp and memory alone, in both states. -/
theorem faultsIgnoreInputsTimersAndRegisters : Obligations.FaultsIgnoreInputsTimersAndRegisters := by
  intro s u f hpc hindex hsp hmem hf
  have hsame : SameFaultInputs s.takeTurn u.takeTurn := ⟨hpc, hindex, hsp, hmem⟩
  exact hsame.cycle_fault hf

end Sys2Proof.Machine
end

section
/-! What an instruction leaves unchanged (spec 10_state.md R20 to R30; 20_memory.md R51; 60_exceptions.md R282): the
frame of each operation, and from these the frame of every instruction. -/

namespace Sys2Proof.Machine

/-! ## A frame from the fields -/

/-- A part that is not listed reads the same where its field did not change. -/
theorem Part.same_of_fields {s t : State} {ps : List Part}
    (index : .index ∈ ps ∨ t.index = s.index := by simp)
    (sp : .sp ∈ ps ∨ t.sp = s.sp := by simp)
    (stack : .stack ∈ ps ∨ t.stack = s.stack := by simp)
    (dt : .dt ∈ ps ∨ t.dt = s.dt := by simp)
    (st : .st ∈ ps ∨ t.st = s.st := by simp)
    (display : .display ∈ ps ∨ t.display = s.display := by simp)
    (memory : .memory ∈ ps ∨ t.mem = s.mem := by simp)
    (random : .random ∈ ps ∨ t.randomIn = s.randomIn ∧ t.drawCount = s.drawCount := by simp)
    {p : Part} (hp : p ∉ ps) : p.Same s t := by
  cases p with
  | index => exact index.resolve_left hp
  | sp => exact sp.resolve_left hp
  | stack => exact fun k => congrArg (·[k]) (stack.resolve_left hp)
  | dt => exact dt.resolve_left hp
  | st => exact st.resolve_left hp
  | display => exact fun x y _ _ => congrArg (Display.pixel · x y) (display.resolve_left hp)
  | memory => exact State.byteAt_of_mem_eq (memory.resolve_left hp)
  | random => exact random.resolve_left hp

/-- A frame from the fields that did not change. -/
theorem Kept.of_fields {s t : State} {rs : List Reg} {ps : List Part}
    (registers : ∀ r, r ∉ rs → t.getV r = s.getV r)
    (index : .index ∈ ps ∨ t.index = s.index := by simp)
    (sp : .sp ∈ ps ∨ t.sp = s.sp := by simp)
    (stack : .stack ∈ ps ∨ t.stack = s.stack := by simp)
    (dt : .dt ∈ ps ∨ t.dt = s.dt := by simp)
    (st : .st ∈ ps ∨ t.st = s.st := by simp)
    (display : .display ∈ ps ∨ t.display = s.display := by simp)
    (memory : .memory ∈ ps ∨ t.mem = s.mem := by simp)
    (random : .random ∈ ps ∨ t.randomIn = s.randomIn ∧ t.drawCount = s.drawCount := by simp)
    (host : t.keys = s.keys ∧ t.turns = s.turns ∧ t.turnCount = s.turnCount := by simp) :
    Kept s t rs ps :=
  ⟨registers, fun _ => Part.same_of_fields index sp stack dt st display memory random, host⟩

theorem Kept.refl (s : State) : Kept s s [] [] := .of_fields fun _ _ => rfl

/-! ## Frames compose -/

theorem Part.Same.trans {s t u : State} {p : Part} (h : p.Same s t) (h' : p.Same t u) : p.Same s u := by
  cases p with
  | index | sp | dt | st => exact Eq.trans h' h
  | stack => exact fun k => (h' k).trans (h k)
  | display => exact fun x y hx hy => (h' x y hx hy).trans (h x y hx hy)
  | memory => exact fun a => (h' a).trans (h a)
  | random => exact ⟨h'.1.trans h.1, h'.2.trans h.2⟩

theorem Kept.trans {s t u : State} {rs rs' : List Reg} {ps ps' : List Part} (h : Kept s t rs ps)
    (h' : Kept t u rs' ps') : Kept s u (rs ++ rs') (ps ++ ps') := by
  obtain ⟨hv, hp, hkeys, hturns, hcount⟩ := h
  obtain ⟨hv', hp', hkeys', hturns', hcount'⟩ := h'
  refine ⟨fun r hr => ?_, fun p hm => ?_, hkeys'.trans hkeys, hturns'.trans hturns, hcount'.trans hcount⟩
  · rw [List.mem_append, not_or] at hr
    exact (hv' r hr.2).trans (hv r hr.1)
  · rw [List.mem_append, not_or] at hm
    exact (hp p hm.1).trans (hp' p hm.2)

/-! ## The frame of each operation -/

section
variable (s : State)

theorem kept_setPc (w : Word) : Kept s (s.setPc w) [] [] := .of_fields fun _ _ => rfl

theorem kept_setV (r : Reg) (b : Byte) : Kept s (s.setV r b) [r] [] :=
  .of_fields fun _ hr => s.getV_setV_other b (List.ne_of_not_mem_cons hr)

theorem kept_writeFlagged (x : Reg) (f r : Byte) : Kept s (s.writeFlagged .flagThenResult x f r) [regVF, x] [] :=
  (kept_setV s regVF f).trans (kept_setV _ x r)

theorem kept_setIndex (w : Word) : Kept s (s.setIndex w) [] [.index] :=
  .of_fields fun _ _ => rfl

theorem kept_setDt (b : Byte) : Kept s (s.setDt b) [] [.dt] :=
  .of_fields fun _ _ => rfl

theorem kept_setSt (b : Byte) : Kept s (s.setSt b) [] [.st] :=
  .of_fields fun _ _ => rfl

theorem kept_setDisplay (d : Display) : Kept s (s.setDisplay d) [] [.display] :=
  .of_fields fun _ _ => rfl

theorem kept_storeBytes (a : Nat) (bs : List Byte) : Kept s (s.storeBytes a bs) [] [.memory] :=
  .of_fields fun _ _ => rfl

theorem kept_consumeDraw : Kept s s.consumeDraw [] [.random] :=
  .of_fields fun _ _ => rfl

theorem mem_regsThrough (x r : Reg) : r ∈ regsThrough x ↔ r ≤ x := by
  simp [regsThrough]

theorem kept_loadBytes (x : Reg) (a : Nat) : Kept s (s.loadBytes x a) (regsThrough x) [] :=
  .of_fields fun r hr => by rw [State.getV_loadBytes, if_neg (mt (mem_regsThrough x r).mpr hr)]

end

/-- The jump, the skip and the plain advance at an instruction's end are a write of pc. -/
theorem Kept.setPc {s t : State} {rs : List Reg} {ps : List Part} (h : Kept s t rs ps) (w : Word) :
    Kept s (t.setPc w) rs ps := by
  have hpc := h.trans (kept_setPc t w)
  rwa [List.append_nil, List.append_nil] at hpc

theorem Kept.advance {s t : State} {rs : List Reg} {ps : List Part} (h : Kept s t rs ps) : Kept s t.advance rs ps :=
  h.setPc _

/-! ## The frame of every instruction -/

theorem exec_ret_kept {s t : State} (h : exec .ret s = .next t) : Kept s t [] [.sp] := by
  obtain ⟨_, rfl⟩ := exec_ret_next h
  exact .of_fields fun _ _ => rfl

theorem exec_call_kept {s t : State} {nnn : Addr12} (h : exec (.call nnn) s = .next t) :
    Kept s t [] [.sp, .stack] := by
  obtain ⟨_, rfl⟩ := exec_call_next h
  exact .of_fields fun _ _ => rfl

theorem exec_kept {i : Instr} {s t : State} (h : exec i s = .next t) : Kept s t (writtenRegs i) (writtenParts i) := by
  cases i with
  | ret => exact exec_ret_kept h
  | call => exact exec_call_kept h
  | jp | jpV0 | seImm | sneImm | seReg | sneReg | skp | sknp => cases h; exact kept_setPc s _
  | ldImm | addImm | ldReg | orReg | andReg | xorReg | ldFromDt => cases h; exact (kept_setV s _ _).advance
  | addReg | subReg | shr | subn | shl => cases h; exact (kept_writeFlagged s _ _ _).advance
  | ldI | addI | ldFont => cases h; exact (kept_setIndex s _).advance
  | ldDt => cases h; exact (kept_setDt s _).advance
  | ldSt => cases h; exact (kept_setSt s _).advance
  | cls => cases h; exact (kept_setDisplay s _).advance
  | rnd => cases h; exact ((kept_consumeDraw s).trans (kept_setV _ _ _)).advance
  | waitKey x =>
    cases h
    split
    next => exact .of_fields fun _ _ => rfl
    next => exact (kept_setV s x _).advance
  | drw =>
    obtain ⟨rfl, -⟩ := guardRange_next h
    exact ((kept_setDisplay s _).trans (kept_setV _ regVF _)).advance
  | ldBcd | storeRegs => obtain ⟨rfl, -⟩ := guardRange_next h; exact (kept_storeBytes s _ _).advance
  | loadRegs x => obtain ⟨rfl, -⟩ := guardRange_next h; exact (kept_loadBytes s x _).advance

/-- Settles O26, through `exec_kept`. -/
theorem everyInstructionKeepsWhatItDoesNotWrite : Obligations.EveryInstructionKeepsWhatItDoesNotWrite :=
  fun _ _ _ => exec_kept

/-- Settles O27: the guarded accesses advance in the state they end in, the other plain instructions by definition. -/
theorem plainInstructionsAdvanceByTwo : Obligations.PlainInstructionsAdvanceByTwo := by
  intro i s t hplain h
  cases i with
  | ret | jp | call | jpV0 | seImm | sneImm | seReg | sneReg | skp | sknp | waitKey => cases hplain
  | drw | ldBcd | storeRegs | loadRegs => obtain ⟨rfl, -⟩ := guardRange_next h; simp
  | _ => cases h; rfl

end Sys2Proof.Machine
end

section
/-! The invariant (spec 10_state.md R25, R28; 20_memory.md R59): each operation keeps it, so every instruction, every
step and every host call does. -/

namespace Sys2Proof.Machine

/-- Settles O19: memory lists nothing, pc is 0x200 and no return address is live. -/
theorem resetMeetsTheInvariant : Obligations.ResetMeetsTheInvariant :=
  ⟨Memory.wf_reset, by decide, fun _ hk => absurd hk (Nat.not_lt_zero _)⟩

/-- The invariant speaks of memory, pc and the call stack alone. -/
theorem State.Inv.of_eq {s t : State} (h : s.Inv) (mem : t.mem = s.mem := by simp) (pc : t.pc = s.pc := by simp)
    (sp : t.sp = s.sp := by simp) (stack : t.stack = s.stack := by simp) : t.Inv := by
  obtain ⟨hmem, hpc, hstack⟩ := h
  exact ⟨mem ▸ hmem, pc ▸ hpc, fun k hk => stack ▸ hstack k (sp ▸ hk)⟩

theorem State.Inv.setPc {s : State} (h : s.Inv) {w : Word} (hw : w.toNat ≤ 0x10FE) : (s.setPc w).Inv :=
  ⟨h.1, hw, h.2.2⟩

theorem State.Inv.advance {s : State} (h : s.Inv) (hpc : s.Fetchable) : s.advance.Inv := by
  have hle : s.pc.toNat ≤ 4094 := hpc
  exact h.setPc (by bv_omega)

/-- An operation on registers, I, timers, display or random bytes, and then the plain advance. -/
theorem State.Inv.advance_of_eq {s t : State} (h : s.Inv) (hpc : s.Fetchable) (mem : t.mem = s.mem := by simp)
    (pc : t.pc = s.pc := by simp) (sp : t.sp = s.sp := by simp) (stack : t.stack = s.stack := by simp) :
    t.advance.Inv := by
  have hfetch : t.Fetchable := by rwa [State.Fetchable, pc]
  exact (h.of_eq mem pc sp stack).advance hfetch

theorem State.Inv.skipIf {s : State} (h : s.Inv) (hpc : s.Fetchable) (c : Bool) : (s.skipIf c).Inv := by
  have hle : s.pc.toNat ≤ 4094 := hpc
  cases c with
  | false => exact h.advance hpc
  | true =>
    have hskip : s.skipIf true = s.setPc (s.pc + 4) := rfl
    rw [hskip]
    exact h.setPc (by bv_omega)

theorem State.Inv.storeBytes {s : State} (h : s.Inv) {a : Nat} {bs : List Byte} (ha : a + bs.length ≤ 4096) :
    (s.storeBytes a bs).Inv := ⟨Memory.wf_writeBytes h.1 ha, h.2⟩

theorem zextAddr_toNat (nnn : Addr12) : (zextAddr nnn).toNat = nnn.toNat := by
  have := nnn.isLt
  rw [zextAddr, BitVec.toNat_setWidth]; omega

/-- JP V0, NNN reaches at most 0xFFF + 0xFF (R122), so 16 bits hold the sum. -/
theorem zextAddr_add_zextByte_toNat (nnn : Addr12) (b : Byte) :
    (zextAddr nnn + zextByte b).toNat = nnn.toNat + b.toNat := by
  have hnnn := nnn.isLt
  have hb := b.isLt
  have hzext : (zextByte b).toNat = b.toNat := by rw [zextByte, BitVec.toNat_setWidth]; omega
  rw [BitVec.toNat_add, zextAddr_toNat, hzext]; omega

theorem exec_ret_keeps_inv {s t : State} (hinv : s.Inv) (h : exec .ret s = .next t) : t.Inv := by
  obtain ⟨hsp, rfl⟩ := exec_ret_next h
  obtain ⟨hmem, -, hstack⟩ := hinv
  have hlive : s.stack[s.sp.val - 1].toNat ≤ 4094 := hstack ⟨s.sp.val - 1, by omega⟩ (by simp only; omega)
  refine ⟨hmem, ?_, fun k hk => hstack k (by simp only at hk; omega)⟩
  simp only
  bv_omega

/-- The address a CALL pushes is its own, where it was fetched (R117). -/
theorem exec_call_keeps_inv {s t : State} {nnn : Addr12} (hinv : s.Inv) (hpc : s.Fetchable)
    (h : exec (.call nnn) s = .next t) : t.Inv := by
  obtain ⟨hsp, rfl⟩ := exec_call_next h
  obtain ⟨hmem, -, hstack⟩ := hinv
  have hnnn := nnn.isLt
  refine ⟨hmem, ?_, fun k hk => ?_⟩
  · rw [zextAddr_toNat]; omega
  · simp only [Fin.getElem_fin, Vector.getElem_set]
    split
    next => exact hpc
    next hne => exact hstack k (by simp only at hk; omega)

theorem exec_keeps_inv {i : Instr} {s t : State} (hinv : s.Inv) (hpc : s.Fetchable) (h : exec i s = .next t) :
    t.Inv := by
  cases i with
  | ret => exact exec_ret_keeps_inv hinv h
  | call => exact exec_call_keeps_inv hinv hpc h
  | jp nnn =>
    cases h
    have hnnn := nnn.isLt
    exact hinv.setPc (by rw [zextAddr_toNat]; omega)
  | jpV0 nnn =>
    cases h
    have hnnn := nnn.isLt
    have hv0 := (s.getV regV0).isLt
    exact hinv.setPc (by rw [zextAddr_add_zextByte_toNat]; omega)
  | seImm | sneImm | seReg | sneReg | skp | sknp => cases h; exact hinv.skipIf hpc _
  | waitKey =>
    cases h
    split
    next => exact hinv
    next => exact hinv.advance_of_eq hpc
  | ldBcd =>
    obtain ⟨rfl, hin⟩ := guardRange_next h
    exact (hinv.storeBytes (by simpa [bcdDigits] using hin)).advance hpc
  | storeRegs x =>
    obtain ⟨rfl, hin⟩ := guardRange_next h
    exact (hinv.storeBytes (by rw [State.regsUpTo_length]; omega)).advance hpc
  | drw | loadRegs => obtain ⟨rfl, -⟩ := guardRange_next h; exact hinv.advance_of_eq hpc
  | _ => cases h; exact hinv.advance_of_eq hpc

theorem cycle_keeps_inv {s t : State} (hinv : s.Inv) (h : cycle s = .next t) : t.Inv := by
  rcases cycle_cases s with ⟨-, hc⟩ | ⟨hpc, ⟨i, -, hc⟩ | ⟨-, hc⟩⟩
  · cases hc.symm.trans h
  · exact exec_keeps_inv hinv hpc (hc.symm.trans h)
  · cases hc.symm.trans h

/-- Settles O20: the host's turn moves only the timers, the snapshot and its own record, so the cycle starts from a
state with the invariant. -/
theorem everyStepKeepsTheInvariant : Obligations.EveryStepKeepsTheInvariant := by
  intro s t hinv h
  have hturn : s.takeTurn.Inv := hinv.of_eq
  exact cycle_keeps_inv hturn h

theorem hostCall_keeps_inv {s : State} (hinv : s.Inv) (c : HostCall) : (hostCall c s).1.Inv := by
  cases c with
  | tick => exact State.Inv.of_eq (t := s.tickTimers) hinv
  | step keys =>
    have hlatched : (s.latchKeys keys).Inv := hinv.of_eq
    have hcall : hostCall (.step keys) s = hostStep keys s := rfl
    rcases hostStep_cases keys s with ⟨t, hc, hs⟩ | ⟨f, -, hs⟩ | ⟨r, -, hs⟩ <;> rw [hcall, hs]
    · exact cycle_keeps_inv hlatched hc
    · exact hinv
    · exact hinv

/-- Settles O21, by induction on the calls. -/
theorem everyHostCallKeepsTheInvariant : Obligations.EveryHostCallKeepsTheInvariant := by
  intro calls
  induction calls with
  | nil => exact fun _ hinv => hinv
  | cons c calls ih => exact fun s hinv => ih _ (hostCall_keeps_inv hinv c)

end Sys2Proof.Machine
end

section
/-! The host's turn and its calls around a step (spec 60_exceptions.md R273, R280, R284, R288), and what can matter to
an instruction (10_state.md R22). -/

namespace Sys2Proof.Machine

/-! ## The turn -/

/-- Settles O7: the timers by `tickTimes_toNat`, the rest field by field. -/
theorem hostTurnIsTicksThenSnapshot : Obligations.HostTurnIsTicksThenSnapshot := by
  refine fun s => ⟨tickTimes_toNat _ _, tickTimes_toNat _ _, rfl, fun turn rest hturns => ?_, rfl,
    s.getV_takeTurn, fun p hdt hst => ?_⟩
  · exact ⟨by rw [State.nextTurn, hturns], by rw [State.takeTurn_turns, hturns, List.tail_cons]⟩
  · exact Part.same_of_fields (ps := [.dt, .st]) (hp := by simp [hdt, hst])

theorem dt_mem_writtenParts {i : Instr} (h : .dt ∈ writtenParts i) : ∃ x, i = .ldDt x := by
  cases i with
  | ldDt x => exact ⟨x, rfl⟩
  | _ => simp [writtenParts] at h

theorem st_mem_writtenParts {i : Instr} (h : .st ∈ writtenParts i) : ∃ x, i = .ldSt x := by
  cases i with
  | ldSt x => exact ⟨x, rfl⟩
  | _ => simp [writtenParts] at h

theorem tickTimes_toNat_le (n : Nat) (b : Byte) : (tickTimes n b).toNat ≤ b.toNat := by
  rw [tickTimes_toNat]; exact Nat.sub_le _ _

/-- Settles O17: the turn only lowers the timers, and an instruction other than the write keeps its timer. -/
theorem timersRiseOnlyThroughTheirWrites : Obligations.TimersRiseOnlyThroughTheirWrites := by
  intro s t h
  obtain ⟨-, i, hi, hexec⟩ := step_next h
  obtain ⟨-, hparts, -⟩ := exec_kept hexec
  refine ⟨fun hne => ?_, fun hne => ?_⟩
  · have hdt : t.dt = s.takeTurn.dt := hparts .dt fun hmem => by
      obtain ⟨x, rfl⟩ := dt_mem_writtenParts hmem
      exact hne x hi
    rw [hdt]; exact tickTimes_toNat_le _ _
  · have hst : t.st = s.takeTurn.st := hparts .st fun hmem => by
      obtain ⟨x, rfl⟩ := st_mem_writtenParts hmem
      exact hne x hi
    rw [hst]; exact tickTimes_toNat_le _ _

/-! ## A faulted core -/

theorem hostStep_fault_iff {keys : Keys} {s : State} {f : Fault} :
    (hostStep keys s).2 = .fault f ↔ cycle (s.latchKeys keys) = .fault f := by
  rcases hostStep_cases keys s with ⟨t, hc, hs⟩ | ⟨g, hc, hs⟩ | ⟨r, hc, hs⟩ <;> simp [hc, hs]

/-- The fault of a step is the fault of every step from a state with the same pc, I, sp and memory, and that step
changes nothing (R266, R273). -/
theorem SameFaultInputs.hostStep_fault {s u : State} (h : SameFaultInputs s u) {keys keys' : Keys} {f : Fault}
    (hf : (hostStep keys s).2 = .fault f) : hostStep keys' u = (u, .fault f) := by
  have hlatched : SameFaultInputs (s.latchKeys keys) (u.latchKeys keys') := h
  rw [hostStep, hlatched.cycle_fault (hostStep_fault_iff.mp hf)]

/-- A core that faults, whatever its timers have come to, is moved by the host's calls in its timers alone. -/
theorem hostRun_of_fault {s : State} {keys : Keys} {f : Fault} (hf : (hostStep keys s).2 = .fault f)
    (calls : List HostCall) :
    ∀ d e, ∃ d' e', hostRun calls { s with dt := d, st := e } = { s with dt := d', st := e' } := by
  induction calls with
  | nil => exact fun d e => ⟨d, e, rfl⟩
  | cons c calls ih =>
    intro d e
    cases c with
    | tick => exact ih (tickByte d) (tickByte e)
    | step keys' =>
      have hsame : SameFaultInputs s { s with dt := d, st := e } := ⟨rfl, rfl, rfl, rfl⟩
      rw [hostRun, hostCall, hsame.hostStep_fault hf]
      exact ih d e

/-- Settles O14, by `hostRun_of_fault` from the timers as they are. -/
theorem faultedCoreMakesNoProgress : Obligations.FaultedCoreMakesNoProgress := by
  intro s keys keys' f calls hf
  obtain ⟨d, e, hrun⟩ : ∃ d e, hostRun calls s = { s with dt := d, st := e } := hostRun_of_fault hf calls s.dt s.st
  have hsame : SameFaultInputs s { s with dt := d, st := e } := ⟨rfl, rfl, rfl, rfl⟩
  rw [hrun]
  refine ⟨congrArg Prod.snd (hsame.hostStep_fault hf), fun _ => rfl, rfl, fun p hdt hst => ?_⟩
  exact Part.same_of_fields (ps := [.dt, .st]) (hp := by simp [hdt, hst])

/-! ## Two runs of one instruction -/

/-- The state with other registers and another record of turns. -/
def State.withRegisters (s : State) (v : Vector Byte 16) (turns : List HostTurn) (turnCount : Nat) : State :=
  { s with v := v, turns := turns, turnCount := turnCount }

/-- The second state is the first but for its registers and the model's record of turns. -/
def SameButRegisters (s u : State) : Prop := ∃ v turns turnCount, u = s.withRegisters v turns turnCount

theorem SameButRegisters.sameFaultInputs {s u : State} (h : SameButRegisters s u) : SameFaultInputs s u := by
  obtain ⟨_, _, _, rfl⟩ := h
  exact ⟨rfl, rfl, rfl, rfl⟩

/-- Two runs, from s to t and from u to t': they end alike but for registers and turns, and each register ends the same
in both or untouched in both. -/
def TwoRuns (s u t t' : State) : Prop :=
  SameButRegisters t t' ∧ ∀ r, t'.getV r = t.getV r ∨ (t'.getV r = u.getV r ∧ t.getV r = s.getV r)

theorem TwoRuns.start {s u : State} (h : SameButRegisters s u) : TwoRuns s u s u := ⟨h, fun _ => .inr ⟨rfl, rfl⟩⟩

section
variable {s u t t' : State} (h : TwoRuns s u t t')
include h

/-- Both runs go on with an operation that neither reads nor writes registers. -/
theorem TwoRuns.map (f : State → State)
    (hf : ∀ q v turns turnCount, f (q.withRegisters v turns turnCount) = (f q).withRegisters v turns turnCount)
    (hv : ∀ q, (f q).v = q.v) : TwoRuns s u (f t) (f t') := by
  obtain ⟨⟨v, turns, turnCount, rfl⟩, hregs⟩ := h
  refine ⟨⟨v, turns, turnCount, hf t v turns turnCount⟩, fun r => ?_⟩
  rw [State.getV_of_v_eq (hv t), State.getV_of_v_eq (hv _)]
  exact hregs r

theorem TwoRuns.setPc (w : Word) : TwoRuns s u (t.setPc w) (t'.setPc w) :=
  h.map (State.setPc · w) (fun _ _ _ _ => rfl) fun _ => rfl

theorem TwoRuns.advance : TwoRuns s u t.advance t'.advance := h.map State.advance (fun _ _ _ _ => rfl) fun _ => rfl

theorem TwoRuns.skipIf (c : Bool) : TwoRuns s u (t.skipIf c) (t'.skipIf c) :=
  h.map (State.skipIf · c) (fun _ _ _ _ => rfl) fun _ => rfl

theorem TwoRuns.setIndex (w : Word) : TwoRuns s u (t.setIndex w) (t'.setIndex w) :=
  h.map (State.setIndex · w) (fun _ _ _ _ => rfl) fun _ => rfl

theorem TwoRuns.setDt (b : Byte) : TwoRuns s u (t.setDt b) (t'.setDt b) :=
  h.map (State.setDt · b) (fun _ _ _ _ => rfl) fun _ => rfl

theorem TwoRuns.setSt (b : Byte) : TwoRuns s u (t.setSt b) (t'.setSt b) :=
  h.map (State.setSt · b) (fun _ _ _ _ => rfl) fun _ => rfl

theorem TwoRuns.setDisplay (d : Display) : TwoRuns s u (t.setDisplay d) (t'.setDisplay d) :=
  h.map (State.setDisplay · d) (fun _ _ _ _ => rfl) fun _ => rfl

theorem TwoRuns.storeBytes (a : Nat) (bs : List Byte) : TwoRuns s u (t.storeBytes a bs) (t'.storeBytes a bs) :=
  h.map (State.storeBytes · a bs) (fun _ _ _ _ => rfl) fun _ => rfl

theorem TwoRuns.consumeDraw : TwoRuns s u t.consumeDraw t'.consumeDraw :=
  h.map State.consumeDraw (fun _ _ _ _ => rfl) fun _ => rfl

theorem TwoRuns.setV (r : Reg) (b : Byte) : TwoRuns s u (t.setV r b) (t'.setV r b) := by
  obtain ⟨⟨_, _, _, rfl⟩, hregs⟩ := h
  refine ⟨⟨_, _, _, rfl⟩, fun r' => ?_⟩
  rw [State.getV_setV, State.getV_setV]
  split
  next => exact .inl rfl
  next => exact hregs r'

theorem TwoRuns.writeFlagged (x : Reg) (f r : Byte) :
    TwoRuns s u (t.writeFlagged .flagThenResult x f r) (t'.writeFlagged .flagThenResult x f r) :=
  (h.setV regVF f).setV x r

theorem TwoRuns.loadBytes (x : Reg) (a : Nat) : TwoRuns s u (t.loadBytes x a) (t'.loadBytes x a) := by
  obtain ⟨⟨v, turns, turnCount, rfl⟩, hregs⟩ := h
  refine ⟨⟨_, turns, turnCount, rfl⟩, fun r => ?_⟩
  rw [State.getV_loadBytes, State.getV_loadBytes]
  split
  next => exact .inl rfl
  next => exact hregs r

end

/-- FX55 stores registers up to X and no other. -/
theorem State.regsUpTo_congr {s u : State} {x : Reg} (h : ∀ r ∈ regsThrough x, u.getV r = s.getV r) :
    u.regsUpTo x = s.regsUpTo x := by
  apply List.ext_getElem
  · rw [State.regsUpTo_length, State.regsUpTo_length]
  · intro k hk _
    rw [State.regsUpTo_length] at hk
    rw [State.regsUpTo_getElem, State.regsUpTo_getElem]
    exact h _ ((mem_regsThrough x _).mpr (Nat.le_of_lt_succ hk))

/-- The instruction reads the same values in both states, so that it does the same operations in both. -/
theorem exec_twoRuns {i : Instr} {s u t : State} (hread : ∀ r ∈ readRegs i, u.getV r = s.getV r)
    (hsame : SameButRegisters s u) (h : exec i s = .next t) : ∃ t', exec i u = .next t' ∧ TwoRuns s u t t' := by
  have hruns := TwoRuns.start hsame
  obtain ⟨v, turns, turnCount, rfl⟩ := hsame
  cases i with
  | ret =>
    obtain ⟨hsp, rfl⟩ := exec_ret_next h
    exact ⟨_, exec_ret_of_sp_ne_zero (s := s.withRegisters v turns turnCount) hsp, ⟨v, turns, turnCount, rfl⟩, hruns.2⟩
  | call =>
    obtain ⟨hsp, rfl⟩ := exec_call_next h
    exact ⟨_, exec_call_of_sp_lt (s := s.withRegisters v turns turnCount) hsp, ⟨v, turns, turnCount, rfl⟩, hruns.2⟩
  | jp => cases h; exact ⟨_, rfl, hruns.setPc _⟩
  | jpV0 =>
    cases h
    refine ⟨_, rfl, ?_⟩
    rw [hread regV0 (by simp [readRegs])]
    exact hruns.setPc _
  | seImm x | sneImm x | skp x | sknp x =>
    cases h
    refine ⟨_, rfl, ?_⟩
    rw [hread x (by simp [readRegs])]
    exact hruns.skipIf _
  | seReg x y | sneReg x y =>
    cases h
    refine ⟨_, rfl, ?_⟩
    rw [hread x (by simp [readRegs]), hread y (by simp [readRegs])]
    exact hruns.skipIf _
  | ldImm | ldFromDt => cases h; exact ⟨_, rfl, (hruns.setV _ _).advance⟩
  | addImm x =>
    cases h
    refine ⟨_, rfl, ?_⟩
    rw [hread x (by simp [readRegs])]
    exact (hruns.setV _ _).advance
  | ldReg x y =>
    cases h
    refine ⟨_, rfl, ?_⟩
    rw [hread y (by simp [readRegs])]
    exact (hruns.setV _ _).advance
  | orReg x y | andReg x y | xorReg x y =>
    cases h
    refine ⟨_, rfl, ?_⟩
    rw [hread x (by simp [readRegs]), hread y (by simp [readRegs])]
    exact (hruns.setV _ _).advance
  | addReg x y | subReg x y | subn x y =>
    cases h
    refine ⟨_, rfl, ?_⟩
    rw [hread x (by simp [readRegs]), hread y (by simp [readRegs])]
    exact (hruns.writeFlagged _ _ _).advance
  | shr x | shl x =>
    cases h
    refine ⟨_, rfl, ?_⟩
    rw [hread x (by simp [readRegs])]
    exact (hruns.writeFlagged _ _ _).advance
  | ldI => cases h; exact ⟨_, rfl, (hruns.setIndex _).advance⟩
  | addI x | ldFont x =>
    cases h
    refine ⟨_, rfl, ?_⟩
    rw [hread x (by simp [readRegs])]
    exact (hruns.setIndex _).advance
  | ldDt x =>
    cases h
    refine ⟨_, rfl, ?_⟩
    rw [hread x (by simp [readRegs])]
    exact (hruns.setDt _).advance
  | ldSt x =>
    cases h
    refine ⟨_, rfl, ?_⟩
    rw [hread x (by simp [readRegs])]
    exact (hruns.setSt _).advance
  | cls => cases h; exact ⟨_, rfl, (hruns.setDisplay _).advance⟩
  | rnd => cases h; exact ⟨_, rfl, (hruns.consumeDraw.setV _ _).advance⟩
  | waitKey =>
    have hkey : (s.withRegisters v turns turnCount).lowestKey = s.lowestKey := rfl
    cases h
    refine ⟨_, rfl, ?_⟩
    rw [hkey]
    split
    next => exact hruns
    next => exact (hruns.setV _ _).advance
  | drw x y =>
    obtain ⟨rfl, hin⟩ := guardRange_next h
    refine ⟨_, guardRange_of_le hin, ?_⟩
    rw [hread x (by simp [readRegs]), hread y (by simp [readRegs])]
    exact ((hruns.setDisplay _).setV _ _).advance
  | ldBcd x =>
    obtain ⟨rfl, hin⟩ := guardRange_next h
    refine ⟨_, guardRange_of_le hin, ?_⟩
    rw [hread x (by simp [readRegs])]
    exact (hruns.storeBytes _ _).advance
  | storeRegs x =>
    obtain ⟨rfl, hin⟩ := guardRange_next h
    refine ⟨_, guardRange_of_le hin, ?_⟩
    rw [State.regsUpTo_congr hread]
    exact (hruns.storeBytes _ _).advance
  | loadRegs x =>
    obtain ⟨rfl, hin⟩ := guardRange_next h
    exact ⟨_, guardRange_of_le hin, (hruns.loadBytes _ _).advance⟩

/-- Settles O28: `exec_twoRuns`, where no instruction touches the record of turns. -/
theorem instructionsReadOnlyTheirRegisters : Obligations.InstructionsReadOnlyTheirRegisters := by
  intro i s u hread hu
  have hsame : SameButRegisters s u := ⟨u.v, s.turns, s.turnCount, hu⟩
  refine ⟨fun f hf => ?_, fun t ht => ?_⟩
  · rw [exec_fault_iff] at hf ⊢
    rw [hsame.sameFaultInputs.execFault_eq, hf]
  · obtain ⟨t', ht', ⟨v, turns, turnCount, rfl⟩, hregs⟩ := exec_twoRuns hread hsame ht
    obtain ⟨-, -, -, hturns, hcount⟩ := exec_kept ht
    obtain ⟨-, -, -, hturns', hcount'⟩ := exec_kept ht'
    have hturnsEq : turns = t.turns := (hturns'.trans (by rw [hu])).trans hturns.symm
    have hcountEq : turnCount = t.turnCount := (hcount'.trans (by rw [hu])).trans hcount.symm
    exact ⟨_, ht', by rw [hturnsEq, hcountEq]; rfl, hregs⟩

/-! ## A step as the host's separate calls -/

theorem hostRun_append (calls calls' : List HostCall) (s : State) :
    hostRun (calls ++ calls') s = hostRun calls' (hostRun calls s) := by
  induction calls generalizing s with
  | nil => rfl
  | cons c calls ih => exact ih _

/-- The state after n timer ticks. -/
def State.afterTicks (s : State) (n : Nat) : State := { s with dt := tickTimes n s.dt, st := tickTimes n s.st }

theorem hostRun_ticks (n : Nat) (s : State) : hostRun (List.replicate n .tick) s = s.afterTicks n := by
  induction n generalizing s with
  | zero => rfl
  | succ n ih => exact ih s.tickTimers

theorem State.v_eq_of_getV {s t : State} (h : ∀ r, t.getV r = s.getV r) : t.v = s.v :=
  Vector.ext fun k hk => h ⟨k, hk⟩

/-- The state in which the host's `step()` runs after the turn's ticks is the state after the turn, but for the record
of turns. -/
def State.handedOver (s : State) : State := (s.afterTicks s.nextTurn.ticks).latchKeys s.nextTurn.keys

theorem sameButRegisters_handedOver (s : State) : SameButRegisters s.takeTurn s.handedOver :=
  ⟨s.v, s.turns, s.turnCount, rfl⟩

/-- The two runs read the same registers throughout, so they end with the same registers. -/
theorem exec_handedOver {i : Instr} {s t : State} (h : exec i s.takeTurn = .next t) :
    exec i s.handedOver = .next (t.withRegisters t.v s.turns s.turnCount) := by
  have hread : ∀ r ∈ readRegs i, s.handedOver.getV r = s.takeTurn.getV r := fun _ _ => rfl
  obtain ⟨t', ht', ⟨v, turns, turnCount, rfl⟩, hregs⟩ := exec_twoRuns hread (sameButRegisters_handedOver s) h
  obtain ⟨-, -, -, hturns, hcount⟩ := exec_kept ht'
  have hv : v = t.v := State.v_eq_of_getV (s := t) (t := t.withRegisters v turns turnCount) fun r =>
    (hregs r).elim id fun ⟨hr', hr⟩ => hr'.trans hr.symm
  have hturnsEq : turns = s.turns := hturns
  have hcountEq : turnCount = s.turnCount := hcount
  rw [ht', hv, hturnsEq, hcountEq]

/-- Settles O15: the ticks bring the host to `State.handedOver`, where its `step()` runs the instruction that the step
ran after its turn. -/
theorem stepIsTheHostsTicksThenStep : Obligations.StepIsTheHostsTicksThenStep := by
  intro s t h
  obtain ⟨hpc, i, hi, hexec⟩ := step_next h
  have hcycle : cycle s.handedOver = exec i s.handedOver := cycle_of_decode (s := s.handedOver) hpc hi
  rw [exec_handedOver hexec] at hcycle
  have hstep : hostStep s.nextTurn.keys (s.afterTicks s.nextTurn.ticks) =
      (t.withRegisters t.v s.turns s.turnCount, .ok) := by
    unfold State.handedOver at hcycle
    rw [hostStep, hcycle]
  rw [hostRun_append, hostRun_ticks, hostRun, hostRun, hostCall, hstep]
  rfl

end Sys2Proof.Machine
end

section
/-! Register loads and arithmetic (spec 41_register_alu.md). Each instruction is its operation on registers with the
plain advance; the frame is `exec_kept`. -/

namespace Sys2Proof.Machine

/-! ## Copies and sums -/

theorem State.setV_getV_self (s : State) (r : Reg) : s.setV r (s.getV r) = s := by
  simp [State.setV, State.getV]

/-- Settles O30: with X = Y the register write leaves the state as it was. -/
theorem registerCopyCopies : Obligations.RegisterCopyCopies := by
  refine fun s x y => ⟨decode_ofNat ?_, (s.setV x (s.getV y)).advance, rfl, ?_, rfl,
    exec_kept (i := .ldReg x y) rfl, fun hxy => ?_⟩
  · simp +arith [encode, wordXYN_toNat]
  · rw [State.getV_advance, State.getV_setV_same]
  · rw [hxy, State.setV_getV_self]; exact (Kept.refl s).advance

/-- Settles O31: bytes add modulo 256. -/
theorem addImmediateWrapsAndKeepsVF : Obligations.AddImmediateWrapsAndKeepsVF := by
  refine fun s x nn => ⟨decode_ofNat ?_, (s.setV x (s.getV x + nn)).advance, rfl, ?_, rfl,
    exec_kept (i := .addImm x nn) rfl⟩
  · simp +arith [encode, wordXNN_toNat]
  · rw [State.getV_advance, State.getV_setV_same, BitVec.toNat_add]

/-- Settles O32: the operations on bytes act on each bit. -/
theorem logicalOperationsActBitwise : Obligations.LogicalOperationsActBitwise := by
  refine fun s x y => ⟨decode_ofNat ?_, decode_ofNat ?_, decode_ofNat ?_,
    ⟨(s.setV x (s.getV x ||| s.getV y)).advance, rfl, fun k => ?_, rfl, exec_kept (i := .orReg x y) rfl⟩,
    ⟨(s.setV x (s.getV x &&& s.getV y)).advance, rfl, fun k => ?_, rfl, exec_kept (i := .andReg x y) rfl⟩,
    ⟨(s.setV x (s.getV x ^^^ s.getV y)).advance, rfl, fun k => ?_, rfl, exec_kept (i := .xorReg x y) rfl⟩⟩
  · simp +arith [encode, wordXYN_toNat]
  · simp +arith [encode, wordXYN_toNat]
  · simp +arith [encode, wordXYN_toNat]
  · rw [State.getV_advance, State.getV_setV_same, BitVec.getLsbD_or]
  · rw [State.getV_advance, State.getV_setV_same, BitVec.getLsbD_and]
  · rw [State.getV_advance, State.getV_setV_same, BitVec.getLsbD_xor]

/-! ## Results with a flag -/

/-- What an instruction that writes a flag and then its result leaves: the result in VX and, where X is not F, the flag
in VF (R146 to R150). -/
theorem exec_flagged {i : Instr} {s : State} {x : Reg} {f r : Byte}
    (h : exec i s = .next (s.writeFlagged .flagThenResult x f r).advance) :
    ∃ t, exec i s = .next t ∧ t.getV x = r ∧ (x ≠ regVF → t.getV regVF = f) ∧ t.pc = s.pc + 2 ∧
      Kept s t [regVF, x] [] := by
  refine ⟨_, h, ?_, fun hx => ?_, rfl, (kept_writeFlagged s x f r).advance⟩
  · rw [State.getV_advance, State.getV_writeFlagged_flagThenResult, if_pos rfl]
  · rw [State.getV_advance, State.getV_writeFlagged_flagThenResult, if_neg hx, if_pos rfl]

theorem flagByte_decide_toNat (p : Prop) [Decidable p] : (flagByte (decide p)).toNat = if p then 1 else 0 := by
  by_cases h : p <;> simp [flagByte, h]

theorem carryFlag_toNat (a b : Byte) : (carryFlag a b).toNat = if a.toNat + b.toNat > 255 then 1 else 0 :=
  flagByte_decide_toNat _

theorem noBorrowFlag_toNat (a b : Byte) : (noBorrowFlag a b).toNat = if a.toNat > b.toNat then 1 else 0 :=
  flagByte_decide_toNat _

/-- The difference of bytes is the difference of their values modulo 256 (R155). -/
theorem sub_toNat_eq_emod (a b : Byte) : ((a - b).toNat : Int) = ((a.toNat : Int) - b.toNat) % 256 := by
  have ha := a.isLt
  have hb := b.isLt
  rw [BitVec.toNat_sub]; omega

theorem shiftedOutLow_toNat (v : Byte) : (shiftedOutLow v).toNat = v.toNat % 2 := by
  rw [shiftedOutLow, BitVec.toNat_and]; exact Nat.and_one_is_mod _

theorem shiftedOutHigh_toNat (v : Byte) : (shiftedOutHigh v).toNat = v.toNat / 128 := by
  have hv := v.isLt
  calc (shiftedOutHigh v).toNat
    _ = (v.toNat &&& 128) >>> 7 := by rw [shiftedOutHigh, BitVec.toNat_ushiftRight, BitVec.toNat_and]; rfl
    _ = v.toNat / 128 &&& 1 := by rw [Nat.shiftRight_and_distrib, Nat.shiftRight_eq_div_pow]; rfl
    _ = v.toNat / 128 := by rw [Nat.and_one_is_mod]; omega

/-- Settles O33: bytes add modulo 256, and the flag is the carry. -/
theorem addSetsSumAndCarry : Obligations.AddSetsSumAndCarry := by
  intro s x y
  obtain ⟨t, ht, hres, hflag, hrest⟩ := exec_flagged (i := .addReg x y) (s := s) rfl
  exact ⟨t, ht, by rw [hres, BitVec.toNat_add], fun hx => by rw [hflag hx, carryFlag_toNat], hrest⟩

/-- Settles O34: SUBN is SUB with the operands exchanged. -/
theorem subtractionsSetDifferenceAndNoBorrow : Obligations.SubtractionsSetDifferenceAndNoBorrow := by
  refine fun s x y => ⟨?_, ?_⟩
  · obtain ⟨t, ht, hres, hflag, hrest⟩ := exec_flagged (i := .subReg x y) (s := s) rfl
    exact ⟨t, ht, by rw [hres, sub_toNat_eq_emod], fun hx => by rw [hflag hx, noBorrowFlag_toNat], hrest⟩
  · obtain ⟨t, ht, hres, hflag, hrest⟩ := exec_flagged (i := .subn x y) (s := s) rfl
    exact ⟨t, ht, by rw [hres, sub_toNat_eq_emod], fun hx => by rw [hflag hx, noBorrowFlag_toNat], hrest⟩

/-- Settles O35: the result by the library's shifts, the flag by the two lemmas on the bit shifted out. -/
theorem shiftsSetResultAndBitShiftedOut : Obligations.ShiftsSetResultAndBitShiftedOut := by
  refine fun s x y => ⟨?_, ?_⟩
  · obtain ⟨t, ht, hres, hflag, hrest⟩ := exec_flagged (i := .shr x y) (s := s) rfl
    refine ⟨t, ht, ?_, fun hx => by rw [hflag hx, shiftedOutLow_toNat], hrest⟩
    rw [hres, BitVec.toNat_ushiftRight, Nat.shiftRight_eq_div_pow, Nat.pow_one]
  · obtain ⟨t, ht, hres, hflag, hrest⟩ := exec_flagged (i := .shl x y) (s := s) rfl
    refine ⟨t, ht, ?_, fun hx => by rw [hflag hx, shiftedOutHigh_toNat], hrest⟩
    rw [hres, BitVec.toNat_shiftLeft, Nat.shiftLeft_eq, Nat.pow_one, Nat.mul_comm]

/-- Settles O37: two writes to different registers commute; to the same register the second stays. -/
theorem flagOrderMattersOnlyForVF : Obligations.FlagOrderMattersOnlyForVF := by
  refine fun s x flag result => ⟨fun hx => ?_, fun hx => ⟨?_, ?_⟩⟩
  · have hne : regVF.val ≠ x.val := fun h => hx (Fin.ext h.symm)
    simp only [State.writeFlagged, State.setV]
    rw [Vector.set_comm _ _ hne]
  · rw [State.getV_writeFlagged_flagThenResult, if_pos hx]
  · rw [State.getV_writeFlagged_resultThenFlag, if_pos rfl]

/-! ## The random byte -/

/-- Settles O36: the byte drawn is the next one given, or a free one. -/
theorem randomDrawsOneByteAndMasksIt : Obligations.RandomDrawsOneByteAndMasksIt := by
  refine fun s x nn => ⟨(s.consumeDraw.setV x (s.randomByte &&& nn)).advance, s.randomByte, rfl, ?_,
    fun r rest hgiven => ⟨?_, ?_⟩, fun hnone => ?_, rfl, rfl, exec_kept (i := .rnd x nn) rfl⟩
  · rw [State.getV_advance, State.getV_setV_same]
  · rw [State.randomByte, hgiven]
  · simp [hgiven]
  · simp [hnone]

end Sys2Proof.Machine
end

section
/-! Control transfer and the call stack (spec 40_control_flow.md section 2 and section 3). -/

namespace Sys2Proof.Machine

/-! ## Jumps and skips -/

/-- Settles O38: each jump is one write of pc, and past 4094 every step faults in its fetch. -/
theorem jumpsGoToTheirTargets : Obligations.JumpsGoToTheirTargets := by
  refine fun s nnn => ⟨decode_ofNat ?_, decode_ofNat ?_,
    ⟨s.setPc (zextAddr nnn), rfl, zextAddr_toNat nnn, kept_setPc s _, State.nextFetchFaultsPastEnd _⟩,
    ⟨s.setPc (zextAddr nnn + zextByte (s.getV regV0)), rfl, zextAddr_add_zextByte_toNat nnn _, kept_setPc s _,
      State.nextFetchFaultsPastEnd _⟩⟩
  · simp [encode, wordNNN_toNat]
  · simp [encode, wordNNN_toNat]

theorem State.skipIf_pc_of_true (s : State) {c : Bool} (h : c = true) : (s.skipIf c).pc = s.pc + 4 := by
  rw [State.skipIf_pc, if_pos h]

theorem State.skipIf_pc_of_false (s : State) {c : Bool} (h : c = false) : (s.skipIf c).pc = s.pc + 2 := by
  rw [State.skipIf_pc, h]; rfl

/-- Settles O39: the condition of each skip is the comparison. -/
theorem immediateSkipsCompareAndSkip : Obligations.ImmediateSkipsCompareAndSkip := by
  refine fun s x nn => ⟨decode_ofNat ?_, decode_ofNat ?_,
    ⟨s.skipIf (s.getV x == nn), rfl, fun h => s.skipIf_pc_of_true (by simp [h]),
      fun h => s.skipIf_pc_of_false (by simp [h]), kept_setPc s _, State.nextFetchFaultsPastEnd _⟩,
    ⟨s.skipIf (s.getV x != nn), rfl, fun h => s.skipIf_pc_of_true (by simp [h]),
      fun h => s.skipIf_pc_of_false (by simp [h]), kept_setPc s _, State.nextFetchFaultsPastEnd _⟩⟩
  · simp +arith [encode, wordXNN_toNat]
  · simp +arith [encode, wordXNN_toNat]

/-- Settles O40, as O39. -/
theorem registerSkipsCompareAndSkip : Obligations.RegisterSkipsCompareAndSkip := by
  refine fun s x y => ⟨decode_ofNat ?_, decode_ofNat ?_,
    ⟨s.skipIf (s.getV x == s.getV y), rfl, fun h => s.skipIf_pc_of_true (by simp [h]),
      fun h => s.skipIf_pc_of_false (by simp [h]), fun h => s.skipIf_pc_of_true (by simp [h]), kept_setPc s _⟩,
    ⟨s.skipIf (s.getV x != s.getV y), rfl, fun h => s.skipIf_pc_of_true (by simp [h]),
      fun h => s.skipIf_pc_of_false (by simp [h]), fun h => s.skipIf_pc_of_false (by simp [h]), kept_setPc s _⟩⟩
  · simp +arith [encode, wordXYN_toNat]
  · simp +arith [encode, wordXYN_toNat]

/-! ## Calls and returns -/

/-- Settles O41: with room the push writes the slot at sp and no other. -/
theorem callPushesItsAddress : Obligations.CallPushesItsAddress := by
  refine fun s nnn => ⟨exec_call_of_sp_full, fun hsp => ?_⟩
  have hexec := exec_call_of_sp_lt (nnn := nnn) hsp
  refine ⟨_, hexec, rfl, zextAddr_toNat nnn, fun k => ?_, exec_call_kept hexec⟩
  simp only [Fin.getElem_fin, Vector.getElem_set, eq_comm]

/-- Settles O42: with an address live the pop reads the slot below sp and writes none. -/
theorem returnGoesPastTheCall : Obligations.ReturnGoesPastTheCall := by
  refine fun s => ⟨exec_ret_of_sp_zero, fun k hk => ?_⟩
  have hexec := exec_ret_of_sp_ne_zero (s := s) (by omega)
  refine ⟨_, hexec, ?_, ?_, exec_ret_kept hexec⟩
  · simp [hk]
  · simp [hk]

/-- Nested calls: each CALL saves its address in the slot that its RET pops, and the calls inside keep that slot. -/
theorem nestedCalls_return (calls : List (Addr12 × (State → State))) :
    ∀ s : State, s.sp.val + calls.length ≤ 16 →
      (∀ c ∈ calls, ∀ u : State, (c.2 u).sp = u.sp ∧ (c.2 u).stack = u.stack) →
      ∃ t, nestedCalls calls s = some t ∧ (calls ≠ [] → t.pc = s.pc + 2) ∧ t.sp = s.sp ∧
        ∀ k : Fin 16, k.val < s.sp.val → t.stack[k] = s.stack[k] := by
  induction calls with
  | nil => exact fun s _ _ => ⟨s, rfl, fun h => absurd rfl h, rfl, fun _ _ => rfl⟩
  | cons c inner ih =>
    obtain ⟨target, body⟩ := c
    intro s hroom hbodies
    rw [List.length_cons] at hroom
    obtain ⟨called, hcall, hcalledSp, -, hcalledStack, -⟩ := (callPushesItsAddress s target).2 (by omega)
    obtain ⟨hbodySp, hbodyStack⟩ := hbodies (target, body) List.mem_cons_self called
    simp only at hbodySp hbodyStack
    rw [← hbodySp] at hcalledSp
    rw [← hbodyStack] at hcalledStack
    obtain ⟨done, hdone, -, hdoneSp, hdoneStack⟩ := ih (body called) (by omega)
      fun c hc => hbodies c (List.mem_cons_of_mem _ hc)
    obtain ⟨slot, hslot⟩ : ∃ slot : Fin 16, slot.val = s.sp.val := ⟨⟨s.sp.val, by omega⟩, rfl⟩
    obtain ⟨t, hret, htSp, htPc, -, hkept, -⟩ := (returnGoesPastTheCall done).2 slot (by omega)
    have htStack : ∀ k : Fin 16, t.stack[k] = done.stack[k] := hkept .stack (by decide)
    refine ⟨t, ?_, fun _ => ?_, Fin.ext (htSp.trans hslot), fun k hk => ?_⟩
    · simp only [nestedCalls, hcall, nextState, hdone, hret]
    · rw [htPc, hdoneStack slot (by omega), hcalledStack, if_pos hslot]
    · rw [htStack, hdoneStack k (by omega), hcalledStack, if_neg (by omega)]

/-- Settles O43, through `nestedCalls_return`. -/
theorem nestedCallsReturnPastTheirCalls : Obligations.NestedCallsReturnPastTheirCalls := by
  intro calls s hne hroom hbodies
  obtain ⟨t, ht, hpc, hrest⟩ := nestedCalls_return calls s hroom hbodies
  exact ⟨t, ht, hpc hne, hrest⟩

theorem callChain_sp (targets : List Addr12) :
    ∀ s : State, s.sp.val + targets.length ≤ 16 →
      ∃ t, callChain targets s = some t ∧ t.sp.val = s.sp.val + targets.length := by
  induction targets with
  | nil => exact fun s _ => ⟨s, rfl, rfl⟩
  | cons target targets ih =>
    intro s hroom
    rw [List.length_cons] at hroom
    obtain ⟨called, hcall, hcalledSp, -⟩ := (callPushesItsAddress s target).2 (by omega)
    obtain ⟨t, ht, htSp⟩ := ih called (by omega)
    refine ⟨t, ?_, ?_⟩
    · simp only [callChain, hcall, nextState, ht]
    · rw [htSp, List.length_cons]; omega

/-- Settles O44: the chain of sixteen calls fills the stack. -/
theorem seventeenthCallOverflows : Obligations.SeventeenthCallOverflows := by
  intro s targets last hsp hlen
  have hempty : s.sp.val = 0 := congrArg Fin.val hsp
  obtain ⟨t, ht, htSp⟩ := callChain_sp targets s (by omega)
  have hfull : t.sp = 16 := Fin.ext (by rw [htSp, hempty, hlen]; rfl)
  exact ⟨t, ht, hfull, exec_call_of_sp_full hfull⟩

end Sys2Proof.Machine
end

section
/-! Keys and timers (spec 44_input_timers.md). -/

namespace Sys2Proof.Machine

/-- Settles O56: a code below 16 is looked up in the snapshot, any other is never down. -/
theorem keySkipsFollowTheSnapshot : Obligations.KeySkipsFollowTheSnapshot := by
  intro s x
  have hdown (k : Fin 16) (hk : k.val = (s.getV x).toNat) : s.keyDown (s.getV x) = s.keys[k] := by
    rw [s.keyDown_of_lt _ (hk ▸ k.isLt)]
    simp [hk]
  refine ⟨⟨s.skipIf (s.keyDown (s.getV x)), rfl, fun k hk => ?_, fun hge => ?_, kept_setPc s _⟩,
    ⟨s.skipIf (!s.keyDown (s.getV x)), rfl, fun k hk => ?_, fun hge => ?_, kept_setPc s _⟩⟩
  · rw [State.skipIf_pc, hdown k hk]
  · exact s.skipIf_pc_of_false (s.keyDown_of_ge _ hge)
  · rw [State.skipIf_pc, hdown k hk]
    cases s.keys[k] <;> rfl
  · exact s.skipIf_pc_of_true (by rw [s.keyDown_of_ge _ hge]; rfl)

theorem exec_waitKey_of_none {s : State} (x : Reg) (h : s.lowestKey = none) : exec (.waitKey x) s = .next s := by
  have hexec : exec (.waitKey x) s = execWaitKey x s := rfl
  rw [hexec, execWaitKey, h]

theorem exec_waitKey_of_some {s : State} (x : Reg) {k : Reg} (h : s.lowestKey = some k) :
    exec (.waitKey x) s = .next (s.setV x (BitVec.ofNat 8 k.val)).advance := by
  have hexec : exec (.waitKey x) s = execWaitKey x s := rfl
  rw [hexec, execWaitKey, h]

/-- The lowest key held is the only one with no lower key held. -/
theorem State.lowestKey_eq {s : State} {k : Reg} (hk : s.keys[k] = true) (hlow : ∀ j : Reg, j < k → s.keys[j] = false) :
    s.lowestKey = some k := by
  cases h : s.lowestKey with
  | none => exact absurd (hk.symm.trans (s.lowestKey_none.mp h k)) (by decide)
  | some k' =>
    obtain ⟨hk', hlow'⟩ := s.lowestKey_some k' h
    rcases lt_trichotomy k' k with hlt | rfl | hgt
    · exact absurd (hk'.symm.trans (hlow k' hlt)) (by decide)
    · rfl
    · exact absurd (hk.symm.trans (hlow' k hgt)) (by decide)

/-- Settles O57: what the wait does is decided by `lowestKey`. -/
theorem waitForKeyTakesTheLowest : Obligations.WaitForKeyTakesTheLowest := by
  refine fun s x => ⟨decode_ofNat ?_, fun hnone => exec_waitKey_of_none x (s.lowestKey_none.mpr hnone),
    fun k hk hlow => ?_⟩
  · simp +arith [encode, wordXNN_toNat]
  · have hexec := exec_waitKey_of_some x (State.lowestKey_eq hk hlow)
    refine ⟨_, hexec, ?_, rfl, exec_kept hexec⟩
    rw [State.getV_advance, State.getV_setV_same, BitVec.toNat_ofNat]; omega

/-- Settles O58: one read of DT, one write of DT, one write of ST. -/
theorem timerInstructionsMoveTheTimers : Obligations.TimerInstructionsMoveTheTimers := by
  refine fun s x => ⟨decode_ofNat ?_, decode_ofNat ?_, decode_ofNat ?_,
    ⟨(s.setV x s.dt).advance, rfl, ?_, rfl, exec_kept (i := .ldFromDt x) rfl⟩,
    ⟨(s.setDt (s.getV x)).advance, rfl, rfl, rfl, exec_kept (i := .ldDt x) rfl⟩,
    ⟨(s.setSt (s.getV x)).advance, rfl, rfl, rfl, exec_kept (i := .ldSt x) rfl⟩⟩
  · simp +arith [encode, wordXNN_toNat]
  · simp +arith [encode, wordXNN_toNat]
  · simp +arith [encode, wordXNN_toNat]
  · rw [State.getV_advance, State.getV_setV_same]

end Sys2Proof.Machine
end

section
/-! Index register and memory transfer (spec 42_index_memory.md; 00_scope.md R13 for the variant parameters). -/

namespace Sys2Proof.Machine

/-! ## The index register -/

/-- Settles O45: zero extension keeps the value. -/
theorem loadIndexZeroExtends : Obligations.LoadIndexZeroExtends := by
  refine fun s nnn => ⟨decode_ofNat ?_, (s.setIndex (zextAddr nnn)).advance, rfl, zextAddr_toNat nnn, rfl,
    exec_kept (i := .ldI nnn) rfl⟩
  simp [encode, wordNNN_toNat]

/-- The glyph base is 0 and a glyph has five bytes (R6). -/
theorem glyphAddr_eq (v : Nat) : glyphAddr v = v * 5 := by simp [glyphAddr]

theorem ofNat_glyphAddr_toNat {v : Nat} (h : v < 256) : (BitVec.ofNat 16 (glyphAddr v)).toNat = v * 5 := by
  rw [glyphAddr_eq, BitVec.toNat_ofNat]; omega

/-- Settles O46: 255 * 5 fits in 16 bits. -/
theorem indexArithmetic : Obligations.IndexArithmetic := fun s x =>
  ⟨⟨(s.setIndex (BitVec.ofNat 16 (s.index.toNat + (s.getV x).toNat))).advance, rfl, BitVec.toNat_ofNat _ _, rfl,
      exec_kept (i := .addI x) rfl⟩,
    ⟨(s.setIndex (BitVec.ofNat 16 (glyphAddr (s.getV x).toNat))).advance, rfl, ofNat_glyphAddr_toNat (s.getV x).isLt,
      rfl, exec_kept (i := .ldFont x) rfl⟩⟩

theorem and_0xF_toNat (b : Byte) : (b &&& 0xF).toNat = b.toNat % 16 := by
  rw [BitVec.toNat_and]; exact Nat.and_two_pow_sub_one_eq_mod _ 4

/-- Settles O47, each parameter's other value by the test it makes. -/
theorem variantParametersActAsDescribed : Obligations.VariantParametersActAsDescribed := by
  refine fun s x => ⟨fun hsum => if_pos hsum, fun hsum => if_neg (Nat.not_lt.mpr hsum),
    ⟨(s.setIndex (BitVec.ofNat 16 (glyphAddr ((s.getV x).toNat % 16)))).advance, rfl, ?_⟩, fun hv => ?_,
    fun hv => if_neg (Nat.not_le.mpr hv), fun hsp => ?_, fun depth hsp => ?_⟩
  · rw [and_0xF_toNat]; exact ofNat_glyphAddr_toNat (by omega)
  · rw [← glyphAddr_eq]; exact if_pos hv
  · rcases s.pushReturn_cases 15 with ⟨hlt, -⟩ | ⟨-, hp⟩
    · rw [hsp] at hlt; exact absurd hlt (by decide)
    · exact hp
  · rcases s.pushReturn_cases depth with ⟨-, t, hp, -⟩ | ⟨hge, -⟩
    · exact ⟨t, hp⟩
    · exact absurd hsp (Nat.not_lt.mpr hge)

/-! ## Stores -/

section
variable {s : State} (hwf : s.mem.wf = true) {a : Nat} {bs : List Byte} (ha : a + bs.length ≤ 4096)
include hwf ha

theorem State.byteAt_storeBytes_inside {k : Nat} (hk : k < bs.length) : (s.storeBytes a bs).byteAt (a + k) = bs[k] := by
  rw [s.byteAt_storeBytes hwf ha, dif_pos (by omega)]
  simp only [Nat.add_sub_cancel_left]

theorem State.byteAt_storeBytes_outside {a' : Nat} (h : a' < a ∨ a + bs.length ≤ a') :
    (s.storeBytes a bs).byteAt a' = s.byteAt a' := by
  rw [s.byteAt_storeBytes hwf ha, dif_neg (by omega)]

end

/-- The fault of an access from I on with a byte outside memory (R263, R267). -/
theorem exec_of_indexed_gt {i : Instr} {s : State} {n : Nat} (hi : execFault s i = indexedFault s n) (hn : 1 ≤ n)
    (h : 4096 < s.index.toNat + n) : exec i s = .fault (.memoryOutOfBounds s.pc (max s.index.toNat 4096)) :=
  exec_of_execFault_some (hi.trans (indexedFault_of_gt hn h))

theorem exec_ldBcd {s : State} (x : Reg) (h : s.index.toNat + 3 ≤ 4096) :
    exec (.ldBcd x) s = .next (s.storeBytes (s.effAddr 0) (bcdDigits (s.getV x))).advance :=
  guardRange_of_le (.inr h)

/-- A digit is below 10, so a byte holds it. -/
theorem ofNat_digit_toNat {d : Nat} (h : d < 10) : (BitVec.ofNat 8 d).toNat = d := by
  rw [BitVec.toNat_ofNat]; omega

/-- Settles O48: the digits by the rule of the stores, and each fits in its byte. -/
theorem bcdStoresTheDecimalDigits : Obligations.BcdStoresTheDecimalDigits := by
  refine fun s x hwf => ⟨decode_ofNat ?_, fun hout => ?_, fun hin => ?_⟩
  · simp +arith [encode, wordXNN_toNat]
  · exact exec_of_indexed_gt (n := 3) rfl (by omega) (by omega)
  · have hexec := exec_ldBcd (s := s) x (by omega)
    have hv := (s.getV x).isLt
    have hlen : (bcdDigits (s.getV x)).length = 3 := rfl
    have ha : s.effAddr 0 + (bcdDigits (s.getV x)).length ≤ 4096 := by rw [hlen, State.effAddr]; omega
    have hbyte (k : Nat) (hk : k < 3) := congrArg BitVec.toNat (State.byteAt_storeBytes_inside hwf ha (k := k) hk)
    refine ⟨_, hexec, ?_, ?_, ?_, fun a h => ?_, rfl, exec_kept hexec⟩
    · exact (hbyte 0 (by decide)).trans (ofNat_digit_toNat (by omega))
    · exact (hbyte 1 (by decide)).trans (ofNat_digit_toNat (by omega))
    · exact (hbyte 2 (by decide)).trans (ofNat_digit_toNat (by omega))
    · exact State.byteAt_storeBytes_outside hwf ha h

theorem exec_storeRegs {s : State} (x : Reg) (h : s.index.toNat + x.val ≤ 4095) :
    exec (.storeRegs x) s = .next (s.storeBytes (s.effAddr 0) (s.regsUpTo x)).advance :=
  guardRange_of_le (.inr (Nat.succ_le_succ h))

/-- Settles O49: the bytes stored are V0 to VX in order. -/
theorem storeRegistersWritesV0ToVX : Obligations.StoreRegistersWritesV0ToVX := by
  refine fun s x hwf => ⟨fun hout => ?_, fun hin => ?_⟩
  · exact exec_of_indexed_gt (n := x.val + 1) rfl (by omega) (by omega)
  · have hexec := exec_storeRegs x hin
    have hlen := s.regsUpTo_length x
    have ha : s.effAddr 0 + (s.regsUpTo x).length ≤ 4096 := by rw [hlen, State.effAddr]; omega
    refine ⟨_, hexec, fun r hr => ?_, fun a h => ?_, rfl, exec_kept hexec⟩
    · have hr' : r.val < (s.regsUpTo x).length := hlen ▸ Nat.lt_succ_of_le hr
      exact (State.byteAt_storeBytes_inside hwf ha hr').trans (s.regsUpTo_getElem x r.val hr')
    · refine State.byteAt_storeBytes_outside hwf ha ?_
      rw [hlen]
      exact h

/-- What an FX55 that goes on leaves: its bytes lie inside memory and hold the registers, and I is kept. -/
theorem exec_storeRegs_next {s t : State} {x : Reg} (hwf : s.mem.wf = true) (h : exec (.storeRegs x) s = .next t) :
    s.index.toNat + x.val ≤ 4095 ∧ t.index = s.index ∧
      ∀ r : Reg, r ≤ x → t.byteAt (s.index.toNat + r.val) = s.getV r := by
  obtain ⟨hfault, hnext⟩ := storeRegistersWritesV0ToVX s x hwf
  have hin : s.index.toNat + x.val ≤ 4095 := by
    by_contra hout
    cases (hfault (by omega)).symm.trans h
  obtain ⟨t', ht', hbytes, -, -, hkept⟩ := hnext hin
  cases ht'.symm.trans h
  exact ⟨hin, hkept.2.1 .index (by decide), hbytes⟩

/-! ## Loads -/

theorem exec_loadRegs {s : State} (x : Reg) (h : s.index.toNat + x.val ≤ 4095) :
    exec (.loadRegs x) s = .next (s.loadBytes x (s.effAddr 0)).advance :=
  guardRange_of_le (.inr (Nat.succ_le_succ h))

/-- Settles O50: the registers loaded are those up to X. -/
theorem loadRegistersReadsV0ToVX : Obligations.LoadRegistersReadsV0ToVX := by
  refine fun s x => ⟨fun hout => ?_, fun hin => ?_⟩
  · exact exec_of_indexed_gt (n := x.val + 1) rfl (by omega) (by omega)
  · have hexec := exec_loadRegs x hin
    refine ⟨_, hexec, fun r hr => ?_, by simp, exec_kept hexec⟩
    rw [State.getV_advance, State.getV_loadBytes, if_pos hr]
    rfl

/-- Settles O51: the load reads the bytes the store left, at the same I. -/
theorem loadAfterStoreRestoresRegisters : Obligations.LoadAfterStoreRestoresRegisters := by
  intro s t u x hwf hstore hmem hindex
  obtain ⟨hin, hkept, hbytes⟩ := exec_storeRegs_next hwf hstore
  rw [hkept] at hindex
  obtain ⟨w, hw, hregs, -⟩ := (loadRegistersReadsV0ToVX u x).2 (by rw [hindex]; exact hin)
  refine ⟨w, hw, fun r hr => ?_⟩
  rw [hregs r hr, State.byteAt_of_mem_eq hmem, State.effAddr, hindex, hbytes r hr]

/-- Settles O52: both bytes were stored, so the fetch lies inside memory. -/
theorem storedBytesAreFetched : Obligations.StoredBytesAreFetched := by
  intro s t u x r r' hwf hstore hr' hsucc hmem hpc
  obtain ⟨hin, -, hbytes⟩ := exec_storeRegs_next hwf hstore
  have hr'x : r'.val ≤ x.val := hr'
  have hfetch : u.fetch = .ok u.wordAtPc := State.fetch_of_fetchable (by rw [State.Fetchable]; omega)
  have hhigh := hbytes r (by rw [Fin.le_def]; omega)
  have hlow := hbytes r' hr'
  rw [hsucc, ← Nat.add_assoc] at hlow
  rw [hfetch, State.wordAtPc, hpc, State.byteAt_of_mem_eq hmem, State.byteAt_of_mem_eq hmem, hhigh, hlow]

end Sys2Proof.Machine
end

section
/-! Display (spec 43_display.md R210 to R214): what a draw leaves, from the rasterizer's own rule. -/

namespace Sys2Proof.Machine

/-- Settles O53, by the pixels of the clear grid. -/
theorem clearTurnsEveryPixelOff : Obligations.ClearTurnsEveryPixelOff := fun s =>
  ⟨by decide, (s.setDisplay Display.clear).advance, rfl, fun x y _ _ => Display.pixel_clear x y, rfl,
    exec_kept (i := .cls) rfl⟩

theorem collisionFlag_eq_one_iff (hit : Bool) : collisionFlag hit = 1 ↔ hit = true := by
  cases hit <;> decide

theorem collisionFlag_eq_one_or_zero (hit : Bool) : collisionFlag hit = 1 ∨ collisionFlag hit = 0 := by
  cases hit <;> decide

/-- A draw whose sprite lies inside memory: the new grid and the collision flag (R211). -/
theorem exec_drw {s : State} (x y : Reg) {n : Height} (h : n.val = 0 ∨ s.index.toNat + n.val ≤ 4096) :
    exec (.drw x y n) s = .next
      ((s.setDisplay (s.drawSprite (s.getV x).toNat (s.getV y).toNat n.val).1).setV regVF
        (collisionFlag (s.drawSprite (s.getV x).toNat (s.getV y).toNat n.val).2)).advance :=
  guardRange_of_le h

/-- Settles O54, from `State.drawSprite_spec`. -/
theorem drawXorsTheClippedSprite : Obligations.DrawXorsTheClippedSprite := by
  refine fun s x y n => ⟨fun hout => ?_, fun hin => ?_⟩
  · exact exec_of_indexed_gt (n := n.val) rfl hout.1 (by omega)
  · have hexec := exec_drw x y (n := n) (s := s) (by omega)
    obtain ⟨hgrid, hhit⟩ := s.drawSprite_spec (s.getV x).toNat (s.getV y).toNat n.val
    refine ⟨_, hexec, fun px py hx hy => hgrid px py hx hy, ?_, ?_, rfl, exec_kept hexec⟩
    · rw [State.getV_advance, State.getV_setV_same]; exact collisionFlag_eq_one_or_zero _
    · rw [State.getV_advance, State.getV_setV_same, collisionFlag_eq_one_iff]; exact hhit

section
variable {s t : State} {x y : Reg} {n : Height} (h : exec (.drw x y n) s = .next t)
include h

/-- A draw that goes on has its sprite inside memory, so O54's second clause speaks of it. -/
theorem exec_drw_next :
    (∀ px py, px < 64 → py < 32 → t.display.pixel px py =
      (s.display.pixel px py ^^ spriteCovers s (s.getV x).toNat (s.getV y).toNat n.val px py)) ∧
    (t.getV regVF = 1 ∨ t.getV regVF = 0) ∧
    (t.getV regVF = 1 ↔ ∃ px py, px < 64 ∧ py < 32 ∧ s.display.pixel px py = true ∧
      spriteCovers s (s.getV x).toNat (s.getV y).toNat n.val px py = true) := by
  obtain ⟨hfault, hnext⟩ := drawXorsTheClippedSprite s x y n
  have hin : n.val = 0 ∨ s.index.toNat + n.val - 1 ≤ 4095 := by
    by_contra hout
    cases (hfault (by omega)).symm.trans h
  obtain ⟨t', ht', hgrid, hflag, hhit, -⟩ := hnext hin
  cases ht'.symm.trans h
  exact ⟨hgrid, hflag, hhit⟩

/-- Drawn onto pixels that are off, a sprite does not collide (R213, R214). -/
theorem getV_regVF_of_drawn_onto_off
    (hoff : ∀ px py, px < 64 → py < 32 → spriteCovers s (s.getV x).toNat (s.getV y).toNat n.val px py = true →
      s.display.pixel px py = false) : t.getV regVF = 0 := by
  obtain ⟨-, hflag, hhit⟩ := exec_drw_next h
  refine hflag.resolve_left fun hone => ?_
  obtain ⟨px, py, hx, hy, hon, hcov⟩ := hhit.mp hone
  cases hon.symm.trans (hoff px py hx hy hcov)

/-- A draw leaves memory and I as they were. -/
theorem exec_drw_mem_index : t.mem = s.mem ∧ t.index = s.index := by
  obtain ⟨rfl, -⟩ := guardRange_next h
  exact ⟨rfl, rfl⟩

end

theorem spriteCovers_congr {s u : State} (hmem : u.mem = s.mem) (hindex : u.index = s.index) (x0 y0 n x y : Nat) :
    spriteCovers u x0 y0 n x y = spriteCovers s x0 y0 n x y := by
  simp only [spriteCovers, State.byteAt_of_mem_eq hmem, hindex]

/-- Settles O55: the second draw turns the same pixels over again; a drawn pixel that was off is on before it. -/
theorem drawingTwiceRestoresTheGrid : Obligations.DrawingTwiceRestoresTheGrid := by
  intro s t u w x y n hfirst hmem hindex hdisplay hx hy hsecond
  obtain ⟨hgrid, -, -⟩ := exec_drw_next hfirst
  obtain ⟨hgrid', -, hhit'⟩ := exec_drw_next hsecond
  obtain ⟨hmem₁, hindex₁⟩ := exec_drw_mem_index hfirst
  have hcovers := spriteCovers_congr (hmem.trans hmem₁) (hindex.trans hindex₁)
  simp only [hdisplay, hx, hy, hcovers] at hgrid' hhit'
  refine ⟨Display.eq_of_pixel fun px py hpx hpy => ?_, fun ⟨px, py, hpx, hpy, hcov, hoff⟩ => ?_,
    getV_regVF_of_drawn_onto_off hfirst⟩
  · rw [hgrid' px py hpx hpy, hgrid px py hpx hpy, Bool.xor_assoc, Bool.xor_self, Bool.xor_false]
  · exact hhit'.mpr ⟨px, py, hpx, hpy, by rw [hgrid px py hpx hpy, hcov, hoff]; rfl, hcov⟩

/-- Settles O59: the first draw leaves the second sprite's pixels off. -/
theorem separateSpritesDoNotCollide : Obligations.SeparateSpritesDoNotCollide := by
  intro s t u w x y x' y' n n' hfirst hdisplay hsecond hseparate
  obtain ⟨hgrid, -, -⟩ := exec_drw_next hfirst
  refine ⟨getV_regVF_of_drawn_onto_off hfirst fun px py hpx hpy hcov => ((hseparate px py hpx hpy).1 hcov).1,
    getV_regVF_of_drawn_onto_off hsecond fun px py hpx hpy hcov => ?_⟩
  obtain ⟨hfirstCov, hsecondCov⟩ := hseparate px py hpx hpy
  have hnot : spriteCovers s (s.getV x).toNat (s.getV y).toNat n.val px py = false :=
    Bool.eq_false_iff.mpr fun hboth => by cases hcov.symm.trans (hfirstCov hboth).2
  rw [hdisplay, hgrid px py hpx hpy, hsecondCov hcov, hnot, Bool.xor_false]

end Sys2Proof.Machine
end

section
/-! Reset (spec 10_state.md R41; 70_reset_and_hazards.md R303). -/

namespace Sys2Proof.Machine

/-- Settles O23: at 0x200 an empty ROM reads as two zero bytes, which no row covers. -/
theorem resetStartsAtTheProgramBase : Obligations.ResetStartsAtTheProgramBase := by
  have hpc : State.reset.Fetchable := by rw [State.Fetchable]; decide
  exact ⟨rfl, illegalWordFaults State.reset hpc (by decide), rfl⟩

end Sys2Proof.Machine
end
